-- ==== Sys2Proof/Word.lean ====
section
/-! DEFINITION. The byte, the one unit of every port and store of the engine (20_memory.md R90). -/

namespace Sys2Proof

/-- A byte of the wire, of a command or of `BUF`; bit 0 is the least significant (00_scope.md R12). -/
abbrev Byte := BitVec 8

end Sys2Proof
end

