-- ==== Sys2Proof/Config.lean ====
section
/-! DEFINITION. The named parameters of 00_scope.md R9 and the closed sets of names the encodings number
(30_encoding.md R116, R118, R127, R128). The numbers themselves are in Decode.lean and Machine/Flags.lean. -/

namespace Sys2Proof

/-- `MAX_CHANNELS` (R9). -/
abbrev maxChannels : Nat := 32
/-- `MAX_DATA_SIZE`, the registry's capacity budget (R9). -/
abbrev maxDataSize : Nat := 65536
/-- `RECV_BUFFER_SIZE` (R9). -/
abbrev recvBufferSize : Nat := 1024
/-- `HEADER_SIZE` (R9). -/
abbrev headerSize : Nat := 8
/-- `MIN_FRAME` = `HEADER_SIZE + EOM_SIZE` (R9). -/
abbrev minFrame : Nat := 11
/-- `LEN_MAX`, the largest `dataSize` (R9). -/
abbrev lenMax : Nat := 65535

/-- The frame types a frame can carry (30_encoding.md R116); NONE and the reserved codes are not among them. -/
inductive FrameType where
  | sync | syncResp | ack | request | data | stop | drop
  deriving DecidableEq, Repr

/-- The ten sample types an application may name in ENABLE (30_encoding.md R118); the engine does not interpret them. -/
inductive DataType where
  | char | int8 | int16 | int32 | uint8 | uint16 | uint32 | float8 | float16 | float32
  deriving DecidableEq, Repr

/-- The status an operation ends with (30_encoding.md R127). -/
inductive Status where
  | ok | invalidChannel | capacityExceeded | sizeExceeded | bufferTooSmall | truncated
  | unsupportedFrameType | lengthOverflow
  deriving DecidableEq, Repr

/-- The signals the engine emits to the application (30_encoding.md R128). -/
inductive Signal where
  | stop | start
  deriving DecidableEq, Repr

/-- When a latched Halt is serviced (00_scope.md R9 `HALT_SERVICE`, 43_state_machine.md R233). -/
inductive HaltService where
  | nextEvent | immediate
  deriving DecidableEq, Repr

/-- The five OPEN parameters of 00_scope.md R9. No step writes them (10_state.md R65).
DESIGN CHOICE (safe, log 3): the machine carries them as plain data, so a statement holds for every value. -/
structure Config where
  /-- `TX_BUFFER_SIZE`, a natural number that is at least 11 in a legal configuration. -/
  txBufferSize : Nat
  /-- `HDR_RESERVED`, header bytes 3 to 7 of every frame sent (30_encoding.md R113). -/
  hdrReserved : Vector Byte 5
  /-- `DROP_ACK_TYPE`, one of the codes 1..7 (43_state_machine.md R248). -/
  dropAckType : FrameType
  /-- `HALT_SERVICE`. -/
  haltService : HaltService
  /-- `ADDR_W`, the width in bits of the `BUF` address space. -/
  addrW : Nat
  deriving DecidableEq, Repr

/-- The range R9 gives `TX_BUFFER_SIZE`; the other parameters are in range by their types. -/
abbrev Config.Legal (c : Config) : Prop := minFrame ≤ c.txBufferSize

/-- The reference configuration RC of 00_scope.md R9. -/
def Config.rc : Config where
  txBufferSize := 2048
  hdrReserved := #v[0, 0, 0, 0, 0]
  dropAckType := .syncResp
  haltService := .nextEvent
  addrW := 32

end Sys2Proof
end

