-- ==== Sys2Proof/Syntax.lean ====
section
/-! DEFINITION. The instructions: one constructor for each mnemonic of spec/opcode_table.json. The rows of one
mnemonic (CMD_RESERVED, RX_RESERVED, SERIALIZE_UNSUPPORTED) are the mask decomposition of one range of byte values,
so the constructor carries the byte. -/

namespace Sys2Proof

/-- The interface an instruction's bytes arrive at. `cmd`, `rx` and `reset` are ports of 00_scope.md R8; `frameRx` is
a frame the Receive Assembler delivers (43_state_machine.md R231) and `frameTx` the operand of SERIALIZE
(41_frame_codec.md R180), both inside the engine. -/
inductive Port where
  | cmd | rx | reset | frameRx | frameTx
  deriving DecidableEq, Repr

/-- A received frame after its type byte (30_encoding.md R110): the state machine reads none of it (R126). -/
structure RxFrame where
  dataSize : BitVec 16
  reserved : Vector Byte 5
  data : List Byte
  deriving DecidableEq, Repr

/-- The instructions of spec/opcode_table.json. -/
inductive Instr where
  /-- ENABLE (40_channel_registry.md R151); `base` is an ADDR_W-bit address. -/
  | enable (id : Byte) (base : Nat) (capacity : BitVec 32) (dataType : Byte)
  /-- DISABLE (R152). -/
  | disable (id : Byte)
  /-- WRITE_STAGED (R153); the operand `len` is the length of `bytes`. -/
  | writeStaged (id : Byte) (bytes : List Byte)
  /-- CLEAR_STAGED (R154). -/
  | clearStaged (id : Byte)
  /-- CLEAR_ALL (R155). -/
  | clearAll
  /-- SEND_ALL (43_state_machine.md R245). -/
  | sendAll
  /-- NOTIFY_READY (R243). -/
  | notifyReady
  /-- NOTIFY_HALT (R244). -/
  | notifyHalt
  /-- A reserved command opcode (30_encoding.md R132). -/
  | cmdReserved (op : Byte)
  /-- RX_BYTE (42_receive_assembler.md R210). -/
  | rxByte (b : Byte)
  /-- RESET (70_reset_and_hazards.md R300). -/
  | reset (n : Byte)
  /-- A received frame of type 0, NONE (43_state_machine.md R241). -/
  | rxNone (f : RxFrame)
  /-- RX SYNC (R234). -/
  | rxSync (f : RxFrame)
  /-- RX SYNC_RESP (R235). -/
  | rxSyncResp (f : RxFrame)
  /-- RX ACK (R236). -/
  | rxAck (f : RxFrame)
  /-- RX REQUEST (R237). -/
  | rxRequest (f : RxFrame)
  /-- RX DATA (R238). -/
  | rxData (f : RxFrame)
  /-- RX STOP (R239). -/
  | rxStop (f : RxFrame)
  /-- RX DROP (R240). -/
  | rxDrop (f : RxFrame)
  /-- A received frame of a reserved type 8..255 (R241). -/
  | rxReserved (type : Byte) (f : RxFrame)
  /-- SERIALIZE(1) (41_frame_codec.md R182). -/
  | txSync
  /-- SERIALIZE(2) (R183). -/
  | txSyncResp
  /-- SERIALIZE(3) (R184). -/
  | txAck
  /-- SERIALIZE(4) (R185). -/
  | txRequest
  /-- SERIALIZE(5) (R186). -/
  | txData
  /-- SERIALIZE(6) (R187). -/
  | txStop
  /-- SERIALIZE(7) (R188). -/
  | txDrop
  /-- SERIALIZE of code 0 or of a code from 8 (R189). -/
  | serializeUnsupported (type : Byte)
  deriving DecidableEq, Repr

end Sys2Proof
end

