-- ==== Sys2Proof/WellFormed.lean ====
section
/-! DEFINITION. Which instruction terms an encoding can carry. -/

namespace Sys2Proof

/-- The operand ranges the encodings of 30_encoding.md give: a base is an ADDR_W-bit address (R131), `len` has 32 bits
(R130), a reserved command opcode is 0x00 or 0x09..0xFF (R132), a reserved received type is 0x08..0xFF (R117), and
an unsupported SERIALIZE operand is 0 or from 8 (41_frame_codec.md R189). The other operands are in range by their
types. -/
def Instr.wf (cfg : Config) : Instr → Bool
  | .enable _ base _ _ => decide (base < 2 ^ cfg.addrW)
  | .writeStaged _ bytes => decide (bytes.length < 2 ^ 32)
  | .cmdReserved op => decide (op.toNat = 0 ∨ 9 ≤ op.toNat)
  | .rxReserved type _ => decide (8 ≤ type.toNat)
  | .serializeUnsupported type => decide (type.toNat = 0 ∨ 8 ≤ type.toNat)
  | .disable _ | .clearStaged _ | .clearAll | .sendAll | .notifyReady | .notifyHalt | .rxByte _ | .reset _
  | .rxNone _ | .rxSync _ | .rxSyncResp _ | .rxAck _ | .rxRequest _ | .rxData _ | .rxStop _ | .rxDrop _
  | .txSync | .txSyncResp | .txAck | .txRequest | .txData | .txStop | .txDrop => true

end Sys2Proof
end

