-- ==== Sys2Proof/Decode.lean ====
section
/-! DEFINITION. Byte order, code numbers, the opcode table, the decoder of every port, and after it the encoder. -/

namespace Sys2Proof

/-! ### Byte order (00_scope.md R12, 20_memory.md R88, R89) -/

/-- `le16 v`: low byte first. The rules use it for `v ≤ 0xFFFF` only. -/
def le16 (v : Nat) : List Byte := [BitVec.ofNat 8 v, BitVec.ofNat 8 (v / 256)]

/-- Byte `i` of a string; the rules use it for `i < |s|` only. -/
def byteAt (s : List Byte) (i : Nat) : Byte := s.getD i 0

/-- `rd_le16(s, i)`. -/
def rdLe16 (s : List Byte) (i : Nat) : Nat := (byteAt s i).toNat + 256 * (byteAt s (i + 1)).toNat

/-- The little-endian value of an operand (30_encoding.md R131). -/
def leNat : List Byte → Nat
  | [] => 0
  | b :: bs => b.toNat + 256 * leNat bs

/-- The `k`-byte little-endian form of a value. -/
def leBytes : Nat → Nat → List Byte
  | 0, _ => []
  | k + 1, v => BitVec.ofNat 8 v :: leBytes k (v / 256)

/-- The terminator EOM (30_encoding.md R115). -/
def eom : List Byte := [0x24, 0x25, 0x26]

/-! ### Code numbers -/

/-- Frame type codes (30_encoding.md R116). -/
def frameTypeCode : FrameType → Byte
  | .sync => 1 | .syncResp => 2 | .ack => 3 | .request => 4 | .data => 5 | .stop => 6 | .drop => 7

/-- The frame type a byte names; none for NONE and the reserved codes (R117). -/
def frameTypeOf (b : Byte) : Option FrameType :=
  match b.toNat with
  | 1 => some .sync | 2 => some .syncResp | 3 => some .ack | 4 => some .request | 5 => some .data
  | 6 => some .stop | 7 => some .drop
  | _ => none

/-- DataType codes in the order the spec decides for them (30_encoding.md R118, decision D5). -/
def dataTypeCode : DataType → Byte
  | .char => 0 | .int8 => 1 | .int16 => 2 | .int32 => 3 | .uint8 => 4 | .uint16 => 5 | .uint32 => 6
  | .float8 => 7 | .float16 => 8 | .float32 => 9

/-! ### Decoding -/

/-- Why bytes are no instruction. `short`: fewer bytes than the encoding has (30_encoding.md R132). `baseTooWide`: an
ENABLE base that is not below 2^ADDR_W (R131). `truncated`: a received string below 11 bytes, which the Receive
Assembler never delivers (41_frame_codec.md R195). -/
inductive Reject where
  | short | baseTooWide | truncated
  deriving DecidableEq, Repr

/-- An instruction and the bytes left after it, or the reason there is none. -/
abbrev Decoded := Except Reject (Instr × List Byte)

/-- A = ⌈ADDR_W / 8⌉, the width of ENABLE's base operand (30_encoding.md R130). -/
def addrBytes (cfg : Config) : Nat := (cfg.addrW + 7) / 8

/-- ENABLE after its opcode: `id`:1, `base`:A, `capacity`:4, `dataType`:1. -/
def decodeEnable (cfg : Config) (bs : List Byte) : Decoded :=
  let a := addrBytes cfg
  if bs.length < 6 + a then .error .short
  else
    let base := leNat ((bs.drop 1).take a)
    if base < 2 ^ cfg.addrW then
      .ok (.enable (byteAt bs 0) base (BitVec.ofNat 32 (leNat ((bs.drop (1 + a)).take 4))) (byteAt bs (5 + a)),
        bs.drop (6 + a))
    else .error .baseTooWide

/-- WRITE_STAGED after its opcode: `id`:1, `len`:4, `bytes`:len. -/
def decodeWriteStaged (bs : List Byte) : Decoded :=
  if bs.length < 5 then .error .short
  else
    let len := leNat ((bs.drop 1).take 4)
    if bs.length < 5 + len then .error .short
    else .ok (.writeStaged (byteAt bs 0) ((bs.drop 5).take len), bs.drop (5 + len))

/-- A command whose one operand is `id`. -/
def decodeId (mk : Byte → Instr) : List Byte → Decoded
  | [] => .error .short
  | id :: rest => .ok (mk id, rest)

/-- The command port (30_encoding.md R130 to R132). A command ends where its length says; the bytes after it are left
for the next command (DESIGN CHOICE, log 8). -/
def decodeCommand (cfg : Config) : List Byte → Decoded
  | [] => .error .short
  | op :: rest =>
    match op.toNat with
    | 1 => decodeEnable cfg rest
    | 2 => decodeId .disable rest
    | 3 => decodeWriteStaged rest
    | 4 => decodeId .clearStaged rest
    | 5 => .ok (.clearAll, rest)
    | 6 => .ok (.sendAll, rest)
    | 7 => .ok (.notifyReady, rest)
    | 8 => .ok (.notifyHalt, rest)
    | _ => .ok (.cmdReserved op, rest)

/-- What follows the type byte of a received frame (30_encoding.md R110): the data section is the slice
`[8 .. len-3)` (R126), whatever `dataSize` says. -/
def rxFrameOf (s : List Byte) : RxFrame where
  dataSize := BitVec.ofNat 16 (rdLe16 s 1)
  reserved := #v[byteAt s 3, byteAt s 4, byteAt s 5, byteAt s 6, byteAt s 7]
  data := (s.drop 8).take (s.length - 11)

/-- The row of a received frame, by its byte 0 (43_state_machine.md R231, R241). -/
def rxInstr (type : Byte) (f : RxFrame) : Instr :=
  match type.toNat with
  | 0 => .rxNone f
  | 1 => .rxSync f
  | 2 => .rxSyncResp f
  | 3 => .rxAck f
  | 4 => .rxRequest f
  | 5 => .rxData f
  | 6 => .rxStop f
  | 7 => .rxDrop f
  | _ => .rxReserved type f

/-- A frame the Receive Assembler delivers, taken whole. -/
def decodeFrame (s : List Byte) : Decoded :=
  if s.length < 11 then .error .truncated else .ok (rxInstr (byteAt s 0) (rxFrameOf s), [])

/-- The row of a SERIALIZE operand (41_frame_codec.md R181, R189). -/
def txInstr (type : Byte) : Instr :=
  match type.toNat with
  | 1 => .txSync
  | 2 => .txSyncResp
  | 3 => .txAck
  | 4 => .txRequest
  | 5 => .txData
  | 6 => .txStop
  | 7 => .txDrop
  | _ => .serializeUnsupported type

/-- One byte and the instruction it makes. -/
def decodeByte (mk : Byte → Instr) : List Byte → Decoded
  | [] => .error .short
  | b :: rest => .ok (mk b, rest)

/-- The decoder: total on any bytes at any port. -/
def decode (cfg : Config) (p : Port) (bs : List Byte) : Decoded :=
  match p with
  | .cmd => decodeCommand cfg bs
  | .rx => decodeByte .rxByte bs
  | .reset => decodeByte .reset bs
  | .frameRx => decodeFrame bs
  | .frameTx => decodeByte txInstr bs

/-! ### Encoding -/

/-- The port an instruction arrives at. -/
def Instr.port : Instr → Port
  | .enable .. | .disable _ | .writeStaged .. | .clearStaged _ | .clearAll | .sendAll | .notifyReady | .notifyHalt
  | .cmdReserved _ => .cmd
  | .rxByte _ => .rx
  | .reset _ => .reset
  | .rxNone _ | .rxSync _ | .rxSyncResp _ | .rxAck _ | .rxRequest _ | .rxData _ | .rxStop _ | .rxDrop _
  | .rxReserved .. => .frameRx
  | .txSync | .txSyncResp | .txAck | .txRequest | .txData | .txStop | .txDrop | .serializeUnsupported _ => .frameTx

/-- The wire form of a received frame (30_encoding.md R110). -/
def encodeFrame (type : Byte) (f : RxFrame) : List Byte :=
  type :: (le16 f.dataSize.toNat ++ f.reserved.toList ++ f.data ++ eom)

/-- The bytes of an instruction at its port (30_encoding.md R110, R130, R131, R133). -/
def encode (cfg : Config) : Instr → List Byte
  | .enable id base capacity dataType =>
    1 :: id :: (leBytes (addrBytes cfg) base ++ leBytes 4 capacity.toNat ++ [dataType])
  | .disable id => [2, id]
  | .writeStaged id bytes => 3 :: id :: (leBytes 4 bytes.length ++ bytes)
  | .clearStaged id => [4, id]
  | .clearAll => [5]
  | .sendAll => [6]
  | .notifyReady => [7]
  | .notifyHalt => [8]
  | .cmdReserved op => [op]
  | .rxByte b => [b]
  | .reset n => [n]
  | .rxNone f => encodeFrame 0 f
  | .rxSync f => encodeFrame 1 f
  | .rxSyncResp f => encodeFrame 2 f
  | .rxAck f => encodeFrame 3 f
  | .rxRequest f => encodeFrame 4 f
  | .rxData f => encodeFrame 5 f
  | .rxStop f => encodeFrame 6 f
  | .rxDrop f => encodeFrame 7 f
  | .rxReserved type f => encodeFrame type f
  | .txSync => [1]
  | .txSyncResp => [2]
  | .txAck => [3]
  | .txRequest => [4]
  | .txData => [5]
  | .txStop => [6]
  | .txDrop => [7]
  | .serializeUnsupported type => [type]

/-! ### The opcode table -/

/-- One row of spec/opcode_table.json: byte 0 of its encoding at a port, under a mask. -/
structure TableRow where
  port : Port
  pattern : Byte
  mask : Byte
  mnemonic : String
  deriving DecidableEq, Repr

def commandRows : List TableRow :=
  [⟨.cmd, 0x01, 0xFF, "ENABLE"⟩, ⟨.cmd, 0x02, 0xFF, "DISABLE"⟩, ⟨.cmd, 0x03, 0xFF, "WRITE_STAGED"⟩,
   ⟨.cmd, 0x04, 0xFF, "CLEAR_STAGED"⟩, ⟨.cmd, 0x05, 0xFF, "CLEAR_ALL"⟩, ⟨.cmd, 0x06, 0xFF, "SEND_ALL"⟩,
   ⟨.cmd, 0x07, 0xFF, "NOTIFY_READY"⟩, ⟨.cmd, 0x08, 0xFF, "NOTIFY_HALT"⟩]

def reservedCommandRows : List TableRow :=
  [⟨.cmd, 0x00, 0xFF, "CMD_RESERVED"⟩, ⟨.cmd, 0x09, 0xFF, "CMD_RESERVED"⟩, ⟨.cmd, 0x0A, 0xFE, "CMD_RESERVED"⟩,
   ⟨.cmd, 0x0C, 0xFC, "CMD_RESERVED"⟩, ⟨.cmd, 0x10, 0xF0, "CMD_RESERVED"⟩, ⟨.cmd, 0x20, 0xE0, "CMD_RESERVED"⟩,
   ⟨.cmd, 0x40, 0xC0, "CMD_RESERVED"⟩, ⟨.cmd, 0x80, 0x80, "CMD_RESERVED"⟩]

def byteEventRows : List TableRow := [⟨.rx, 0x00, 0x00, "RX_BYTE"⟩, ⟨.reset, 0x00, 0x00, "RESET"⟩]

def receivedRows : List TableRow :=
  [⟨.frameRx, 0x00, 0xFF, "RX_NONE"⟩, ⟨.frameRx, 0x01, 0xFF, "RX_SYNC"⟩, ⟨.frameRx, 0x02, 0xFF, "RX_SYNC_RESP"⟩,
   ⟨.frameRx, 0x03, 0xFF, "RX_ACK"⟩, ⟨.frameRx, 0x04, 0xFF, "RX_REQUEST"⟩, ⟨.frameRx, 0x05, 0xFF, "RX_DATA"⟩,
   ⟨.frameRx, 0x06, 0xFF, "RX_STOP"⟩, ⟨.frameRx, 0x07, 0xFF, "RX_DROP"⟩, ⟨.frameRx, 0x08, 0xF8, "RX_RESERVED"⟩,
   ⟨.frameRx, 0x10, 0xF0, "RX_RESERVED"⟩, ⟨.frameRx, 0x20, 0xE0, "RX_RESERVED"⟩, ⟨.frameRx, 0x40, 0xC0, "RX_RESERVED"⟩,
   ⟨.frameRx, 0x80, 0x80, "RX_RESERVED"⟩]

def serializedRows : List TableRow :=
  [⟨.frameTx, 0x01, 0xFF, "TX_SYNC"⟩, ⟨.frameTx, 0x02, 0xFF, "TX_SYNC_RESP"⟩, ⟨.frameTx, 0x03, 0xFF, "TX_ACK"⟩,
   ⟨.frameTx, 0x04, 0xFF, "TX_REQUEST"⟩, ⟨.frameTx, 0x05, 0xFF, "TX_DATA"⟩, ⟨.frameTx, 0x06, 0xFF, "TX_STOP"⟩,
   ⟨.frameTx, 0x07, 0xFF, "TX_DROP"⟩, ⟨.frameTx, 0x00, 0xFF, "SERIALIZE_UNSUPPORTED"⟩,
   ⟨.frameTx, 0x08, 0xF8, "SERIALIZE_UNSUPPORTED"⟩, ⟨.frameTx, 0x10, 0xF0, "SERIALIZE_UNSUPPORTED"⟩,
   ⟨.frameTx, 0x20, 0xE0, "SERIALIZE_UNSUPPORTED"⟩, ⟨.frameTx, 0x40, 0xC0, "SERIALIZE_UNSUPPORTED"⟩,
   ⟨.frameTx, 0x80, 0x80, "SERIALIZE_UNSUPPORTED"⟩]

/-- The 44 rows of spec/opcode_table.json, port by port. -/
def opcodeTable : List TableRow :=
  commandRows ++ reservedCommandRows ++ byteEventRows ++ receivedRows ++ serializedRows

/-- Byte `b` as byte 0 at port `p` falls under the row. -/
def TableRow.covers (r : TableRow) (p : Port) (b : Byte) : Bool := r.port == p && (b &&& r.mask) == r.pattern

/-- The instruction's mnemonic in spec/opcode_table.json. -/
def Instr.mnemonic : Instr → String
  | .enable .. => "ENABLE"
  | .disable _ => "DISABLE"
  | .writeStaged .. => "WRITE_STAGED"
  | .clearStaged _ => "CLEAR_STAGED"
  | .clearAll => "CLEAR_ALL"
  | .sendAll => "SEND_ALL"
  | .notifyReady => "NOTIFY_READY"
  | .notifyHalt => "NOTIFY_HALT"
  | .cmdReserved _ => "CMD_RESERVED"
  | .rxByte _ => "RX_BYTE"
  | .reset _ => "RESET"
  | .rxNone _ => "RX_NONE"
  | .rxSync _ => "RX_SYNC"
  | .rxSyncResp _ => "RX_SYNC_RESP"
  | .rxAck _ => "RX_ACK"
  | .rxRequest _ => "RX_REQUEST"
  | .rxData _ => "RX_DATA"
  | .rxStop _ => "RX_STOP"
  | .rxDrop _ => "RX_DROP"
  | .rxReserved .. => "RX_RESERVED"
  | .txSync => "TX_SYNC"
  | .txSyncResp => "TX_SYNC_RESP"
  | .txAck => "TX_ACK"
  | .txRequest => "TX_REQUEST"
  | .txData => "TX_DATA"
  | .txStop => "TX_STOP"
  | .txDrop => "TX_DROP"
  | .serializeUnsupported _ => "SERIALIZE_UNSUPPORTED"

/-! ### Table words -/

/-- The length of the command that begins with these bytes (30_encoding.md R130). -/
def commandLength (cfg : Config) (bs : List Byte) : Nat :=
  match (byteAt bs 0).toNat with
  | 1 => 7 + addrBytes cfg
  | 2 => 2
  | 3 => 6 + leNat ((bs.drop 2).take 4)
  | 4 => 2
  | _ => 1

/-- The command whose first bytes are a table word, least significant byte first; its further bytes are zero. -/
def tableWordBytes (cfg : Config) (nbits w : Nat) : List Byte :=
  let head := leBytes ((nbits + 7) / 8) w
  head ++ List.replicate (commandLength cfg head - head.length) 0

/-- The instruction read from a word of spec/opcode_table.json. Rows of different ports have the same words, so a word
alone does not say its row: it is read at the command port, whose rows give a meaning to every first byte
(DESIGN CHOICE, log 9). -/
def decodeTableWord (nbits w : Nat) : Option Instr :=
  match decode Config.rc .cmd (tableWordBytes Config.rc nbits w) with
  | .ok (i, _) => some i
  | .error _ => none

end Sys2Proof
end

