-- ==== Sys2Proof/Machine/State.lean ====
section
/-! DEFINITION. The state of the engine (10_state.md), the stores and streams beside it (20_memory.md R80), the reasons
a step can stop, and the state after reset. -/

namespace Sys2Proof.Machine

/-- The connection state (10_state.md R43). No output carries its code, so the names stand for the codes 0..3. -/
inductive ConnState where
  | idle | sync | connected | transmitting
  deriving DecidableEq, Repr

/-- A channel slot (10_state.md R48 to R52). Sizes and addresses are exact naturals (00_scope.md R11); that they fit
the widths of R40 is the invariant `SlotsOk` and `RegistryOk` of Safety.lean. -/
structure Slot where
  enabled : Bool
  dataType : Byte
  capacity : Nat
  stagedSize : Nat
  base : Nat
  deriving DecidableEq, Repr

/-- The empty slot (10_state.md R53). -/
def Slot.empty : Slot := ⟨false, 0, 0, 0, 0⟩

/-- The Session `S` (10_state.md R40). -/
structure Session where
  /-- R43. -/
  conn : ConnState
  /-- R44. -/
  userHalt : Bool
  /-- R45. -/
  userReady : Bool
  /-- R46, inert. -/
  running : Bool
  /-- R47, 0..32. -/
  totalChannels : Fin 33
  /-- R48: slot `i` is the channel of id `i`. -/
  slots : Vector Slot 32
  /-- R54. -/
  enabledCount : Nat
  /-- R55. -/
  reservedSize : Nat
  /-- R56, `RXBUF` (20_memory.md R81). -/
  rxBuf : Vector Byte 1024
  /-- R57, 0..1023. -/
  rxIdx : Fin 1024
  /-- R58, the receive-interrupt enable (60_exceptions.md R277). -/
  rxArmed : Bool
  /-- R60. -/
  initialized : Bool
  deriving DecidableEq, Repr

/-- `BUF` (20_memory.md R83), where each of the 2^ADDR_W addresses holds one byte: the bytes that differ from the byte an
unlisted address holds (`unlistedByte` of Ops.lean, log 6), by strictly rising address. Every contents of the finite
space is such a list. -/
abbrev Memory := List Host.Cell

/-- What an outside party sees (10_state.md R67): the outputs of 00_scope.md R13 and the command statuses. -/
inductive Output where
  /-- One whole frame on `TX`. -/
  | tx (frame : List Byte)
  /-- A signal on `SIG`. -/
  | sig (x : Signal)
  /-- The report of a failed transmission on `ERR` (43_state_machine.md R232). -/
  | err (e : Status)
  /-- The status a command returns on `CMD`. -/
  | ret (e : Status)
  deriving DecidableEq, Repr

/-- What the environment presents (00_scope.md R7, R8). -/
inductive Event where
  /-- Bytes on the command port, a command first (30_encoding.md R130). -/
  | cmd (bytes : List Byte)
  /-- One received byte (30_encoding.md R133). -/
  | rx (b : Byte)
  /-- The byte of the `RESET` port (30_encoding.md R133). -/
  | reset (n : Byte)
  /-- The application writes one byte of `BUF` itself, between engine steps (20_memory.md R87). -/
  | bufWrite (addr : Nat) (v : Byte)
  deriving DecidableEq, Repr

/-- What SERIALIZE ends with (41_frame_codec.md R180): the frame, or the error. -/
inductive CodecResult where
  | frame (bytes : List Byte)
  | error (e : Status)
  deriving DecidableEq, Repr

/-- The machine: the Session, the stores beside it, and the streams of its ports. -/
structure State where
  /-- The Session (10_state.md R40). -/
  S : Session
  /-- `BUF`, the external channel-buffer space (10_state.md R66). -/
  buf : Memory
  /-- `TXBUF` with SERIALIZE's result: filled by SERIALIZE, handed over and emptied in the same step (20_memory.md R82,
  10_state.md R59; log 5). -/
  txBuf : Option CodecResult
  /-- The events still to come, in the one total order of 60_exceptions.md R278 (log 1). -/
  input : List Event
  /-- The output trace, oldest first (00_scope.md R16, 43_state_machine.md R246; log 4). -/
  trace : List Output
  /-- The OPEN parameters (00_scope.md R9; log 3). -/
  cfg : Config
  deriving DecidableEq, Repr

/-- Why the machine faults: it never does. Every error of the engine is a status (60_exceptions.md R272), and every
address of `BUF` holds a byte (20_memory.md R83). -/
inductive Fault where
  deriving DecidableEq, Repr

/-- Why an event has no step: the spec's own refusals (00_scope.md R16). Each is safe: nothing can be proved of a run
that goes through it. -/
inductive Refusal where
  /-- Raised by `exec` for an instruction that has no meaning yet; none is left. -/
  | notModelled (mnemonic : String)
  /-- Any event but RESET while `initialized = 0` (70_reset_and_hazards.md R302). -/
  | beforeReset
  /-- RX_BYTE while reception is not armed (42_receive_assembler.md R210). -/
  | receptionDisarmed
  /-- A `BUF` access at or above 2^ADDR_W (20_memory.md R84): WRITE_STAGED, CLEAR_STAGED, SERIALIZE of DATA, a host
  write. -/
  | bufAddressOutOfRange (addr : Nat)
  /-- RESET with an operand above 32 (70_reset_and_hazards.md R304). -/
  | resetOperandOutOfRange (n : Byte)
  /-- A reserved command opcode (30_encoding.md R132). -/
  | reservedCommand (op : Byte)
  /-- A command shorter than its length (30_encoding.md R132). -/
  | shortCommand
  /-- An ENABLE whose base is not below 2^ADDR_W (30_encoding.md R131). -/
  | baseOutOfRange
  /-- A received string below 11 bytes offered as a frame; no step does this (41_frame_codec.md R195). -/
  | shortFrame
  deriving DecidableEq, Repr

/-- The Session RESET(n) leaves (70_reset_and_hazards.md R300), for an admitted `n`. -/
def Session.afterReset (n : Fin 33) : Session where
  conn := .idle
  userHalt := false
  userReady := false
  running := false
  totalChannels := n
  slots := Vector.replicate 32 Slot.empty
  enabledCount := 0
  reservedSize := 0
  rxBuf := Vector.replicate 1024 0
  rxIdx := 0
  rxArmed := true
  initialized := true

/-- The machine right after RESET. The operand 32 is a DESIGN CHOICE (log 2): the spec leaves `totalChannels` to the
application. No `BUF` byte is listed (log 6), nothing is pending and nothing has been output. -/
def State.reset : State where
  S := Session.afterReset 32
  buf := []
  txBuf := none
  input := []
  trace := []
  cfg := Config.rc

end Sys2Proof.Machine
end

