-- ==== Sys2Proof/Machine/Ops.lean ====
section
/-! DEFINITION. The named operations every meaning is written over: sequencing, the pseudocode primitives of
00_scope.md R13, `BUF` and `RXBUF` accesses, the Session's setters, an operation's error exit, and entry to and return
from the receive interrupt. -/

namespace Sys2Proof.Machine

/-- What an operation ends with: a value and a next state's worth of progress, or a stop. -/
abbrev Result (α : Type) := Host.Outcome α Fault Refusal

/-- Sequencing: a stop ends the whole step. -/
def andThen {α β : Type} (x : Result α) (k : α → Result β) : Result β :=
  match x with
  | .next a => k a
  | .fault f => .fault f
  | .refused r => .refused r

/-! ### Outputs and errors (00_scope.md R13) -/

/-- Append one output to the trace. -/
def emit (o : Output) (s : State) : State := { s with trace := s.trace ++ [o] }

/-- `return E`: end a command with status `e` after its writes. -/
def retStatus (e : Status) (s : State) : Result State := .next (emit (.ret e) s)

/-- `raise E`, the engine's exception (60_exceptions.md R272, R274): the operation ends with status `e` on the port that
invoked it, and `s`, the state at the operation's start, keeps every field and every `BUF` byte. -/
def raise (e : Status) (s : State) : Result State := retStatus e s

/-- An external event but RESET is admitted after the first RESET only (70_reset_and_hazards.md R302). -/
def admitted (s : State) (k : State → Result State) : Result State :=
  if s.S.initialized then k s else .refused .beforeReset

/-! ### `BUF` (20_memory.md R83 to R93) -/

/-- The byte at an address that is not listed. The contents of `BUF` before the first write are the application's (R83):
that `State.reset` has this byte everywhere is a DESIGN CHOICE (unsafe, log 6). -/
abbrev unlistedByte : Byte := 0

/-- The byte at an address. -/
def Memory.read : Memory → Nat → Byte
  | [], _ => unlistedByte
  | (b, v) :: rest, a => if a = b then v else Memory.read rest a

/-- List a byte before the first higher address. -/
def Memory.insert : Memory → Nat → Byte → Memory
  | [], a, v => [(a, v)]
  | (b, w) :: rest, a, v => if a < b then (a, v) :: (b, w) :: rest else (b, w) :: Memory.insert rest a v

/-- Write one byte: the address is listed exactly when the byte is not the one an unlisted address holds. -/
def Memory.write (m : Memory) (a : Nat) (v : Byte) : Memory :=
  let others := m.filter fun c => decide (c.1 ≠ a)
  if v = unlistedByte then others else Memory.insert others a v

/-- The canonical form: strictly rising addresses, and no entry equal to what an unlisted address reads as. -/
abbrev Memory.wf (m : Memory) : Prop :=
  (m.Pairwise fun x y => x.1 < y.1) ∧ ∀ c ∈ m, c.2 ≠ unlistedByte

/-- Every listed address is below 2^w. -/
abbrev Memory.within (w : Nat) (m : Memory) : Prop := ∀ c ∈ m, c.1 < 2 ^ w

/-- `MemRead(BUF, a, 1)`; refused at or above 2^ADDR_W (R84). -/
def memRead (s : State) (a : Nat) : Result Byte :=
  if a < 2 ^ s.cfg.addrW then .next (Memory.read s.buf a) else .refused (.bufAddressOutOfRange a)

/-- `MemWrite(BUF, a, 1, v)`; refused at or above 2^ADDR_W (R84). -/
def memWrite (a : Nat) (v : Byte) (s : State) : Result State :=
  if a < 2 ^ s.cfg.addrW then .next { s with buf := Memory.write s.buf a v }
  else .refused (.bufAddressOutOfRange a)

/-- MemRead of `n` bytes from `a` up, one byte at a time (R90); addresses do not wrap. -/
def readBytes (s : State) : Nat → Nat → Result (List Byte)
  | _, 0 => .next []
  | a, n + 1 => andThen (memRead s a) fun v => andThen (readBytes s (a + 1) n) fun vs => .next (v :: vs)

/-- MemWrite of a string from `a` up, one byte at a time (R90). -/
def writeBytes : Nat → List Byte → State → Result State
  | _, [], s => .next s
  | a, v :: vs, s => andThen (memWrite a v s) (writeBytes (a + 1) vs)

/-! ### The Session -/

def setSession (S : Session) (s : State) : State := { s with S := S }

/-- `state <- c`. -/
def setConn (c : ConnState) (s : State) : State := { s with S := { s.S with conn := c } }

def setTxBuf (r : Option CodecResult) (s : State) : State := { s with txBuf := r }

/-- Slot `i`. Meanings use it for `i < 32` only (40_channel_registry.md R150). -/
def slotAt (S : Session) (i : Nat) : Slot := S.slots.toList.getD i Slot.empty

/-- `S.slot[i] <- x`. -/
def setSlot (S : Session) (i : Nat) (x : Slot) : Session := { S with slots := S.slots.setIfInBounds i x }

/-! ### `RXBUF` and the receive interrupt (42_receive_assembler.md, 60_exceptions.md R276 to R280) -/

/-- The accumulated bytes `rxBuf[0 .. rxIdx)` (42_receive_assembler.md R213). -/
def received (S : Session) : List Byte := S.rxBuf.toList.take S.rxIdx.val

/-- `rxBuf[0 .. 1023] <- 0 ; rxIdx <- 0`. -/
def clearRx (S : Session) : Session := { S with rxBuf := Vector.replicate 1024 0, rxIdx := 0 }

/-- `rxBuf[rxIdx] <- b ; rxIdx <- rxIdx + 1`; R210 does this for `rxIdx ≤ 1022` only. -/
def appendRx (b : Byte) (S : Session) : Session :=
  { S with rxBuf := S.rxBuf.set S.rxIdx.val b S.rxIdx.isLt, rxIdx := S.rxIdx + 1 }

/-- Entry to the receive handler (60_exceptions.md R279): nothing is saved, reception is masked. -/
def enterReceive (s : State) : State := { s with S := { s.S with rxArmed := false } }

/-- Return from the receive handler (60_exceptions.md R280): reception is armed again. -/
def leaveReceive (s : State) : State := { s with S := { s.S with rxArmed := true } }

end Sys2Proof.Machine
end

