-- ==== Sys2Proof/Machine/Operands.lean ====
section
/-! DEFINITION. How an event becomes an instruction, and the operand checks the registry operations share. -/

namespace Sys2Proof.Machine

/-! ### Events (00_scope.md R7, R8) -/

/-- The refusal of bytes that are no instruction (30_encoding.md R131, R132). -/
def refusalOf : Reject → Refusal
  | .short => .shortCommand
  | .baseTooWide => .baseOutOfRange
  | .truncated => .shortFrame

/-- What is left of a command delivery after its first command, put back in front (log 8). -/
def withRest (rest : List Byte) (es : List Event) : List Event :=
  match rest with
  | [] => es
  | _ :: _ => .cmd rest :: es

/-- The instruction an event presents, and the events after it. -/
def fetch (cfg : Config) (p : Port) (bs : List Byte) (es : List Event) : Result (Instr × List Event) :=
  match decode cfg p bs with
  | .ok (i, rest) => .next (i, withRest rest es)
  | .error r => .refused (refusalOf r)

/-- The event that presents an external instruction; the frame rows have none, they arise inside RX_BYTE and SERIALIZE. -/
def eventOf (cfg : Config) (i : Instr) : Option Event :=
  match i with
  | .rxByte b => some (.rx b)
  | .reset n => some (.reset n)
  | i => if i.port = .cmd then some (.cmd (encode cfg i)) else none

/-! ### Channel ids (40_channel_registry.md R150) -/

/-- `id < totalChannels`, ENABLE's only check of its id. -/
def inRange (S : Session) (id : Byte) : Bool := decide (id.toNat < S.totalChannels.val)

/-- The check of DISABLE, WRITE_STAGED and CLEAR_STAGED: in range and enabled. -/
def usable (S : Session) (id : Byte) : Bool := inRange S id && (slotAt S id.toNat).enabled

end Sys2Proof.Machine
end

