-- ==== Sys2Proof/Machine/Codec.lean ====
section
/-! DEFINITION. The Frame Codec: SERIALIZE and PARSE (41_frame_codec.md). -/

namespace Sys2Proof.Machine

/-! ### SERIALIZE -/

/-- P: the slots with something staged, ascending (R181). -/
def stagedIds (S : Session) : List Nat := (List.range 32).filter fun i => decide (0 < (slotAt S i).stagedSize)

/-- `DataLen(T)` (R181). -/
def dataLen (S : Session) : FrameType → Nat
  | .sync | .ack | .request | .stop | .drop => 0
  | .syncResp => 1
  | .data => 1 + ((stagedIds S).map fun i => 4 + (slotAt S i).stagedSize).sum

/-- The DATA record of slot `i` (30_encoding.md R121). -/
def dataRecord (s : State) (i : Nat) : Result (List Byte) :=
  let c := slotAt s.S i
  andThen (readBytes s c.base c.stagedSize) fun sample =>
    .next (BitVec.ofNat 8 i :: (le16 c.stagedSize ++ c.dataType :: sample))

/-- The records of the listed slots, in order. -/
def dataRecords (s : State) : List Nat → Result (List Byte)
  | [] => .next []
  | i :: rest => andThen (dataRecord s i) fun d => andThen (dataRecords s rest) fun ds => .next (d ++ ds)

/-- `DataBytes(T)` (R181, R183, R186). -/
def dataBytes (s : State) : FrameType → Result (List Byte)
  | .sync | .ack | .request | .stop | .drop => .next []
  | .syncResp => .next [BitVec.ofNat 8 s.S.totalChannels.val]
  | .data => andThen (dataRecords s (stagedIds s.S)) fun ds => .next (BitVec.ofNat 8 (stagedIds s.S).length :: ds)

/-- Header, data section and trailer (R180, R190). -/
def frameBytes (cfg : Config) (T : FrameType) (n : Nat) (d : List Byte) : List Byte :=
  frameTypeCode T :: (le16 n ++ cfg.hdrReserved.toList ++ d ++ eom)

/-- SERIALIZE of a frame type: the length checks in the order of R193, then the frame. -/
def serializeType (s : State) (T : FrameType) : Result CodecResult :=
  let n := dataLen s.S T
  if lenMax < n then .next (.error .lengthOverflow)
  else if s.cfg.txBufferSize < minFrame + n then .next (.error .bufferTooSmall)
  else andThen (dataBytes s T) fun d => .next (.frame (frameBytes s.cfg T n d))

/-- SERIALIZE(T) for any code (R180, R189, R193). -/
def serialize (s : State) (type : Byte) : Result CodecResult :=
  match frameTypeOf type with
  | none => .next (.error .unsupportedFrameType)
  | some T => serializeType s T

/-- SERIALIZE with its result in the transmit buffer (20_memory.md R82); nothing else is written (R180). -/
def serializeInto (type : Byte) (s : State) : Result State :=
  andThen (serialize s type) fun r => .next (setTxBuf (some r) s)

/-- SERIALIZE of SYNC (R182). -/
def execTxSync (s : State) : Result State := serializeInto (frameTypeCode .sync) s
/-- SERIALIZE of SYNC_RESP (R183). -/
def execTxSyncResp (s : State) : Result State := serializeInto (frameTypeCode .syncResp) s
/-- SERIALIZE of ACK (R184). -/
def execTxAck (s : State) : Result State := serializeInto (frameTypeCode .ack) s
/-- SERIALIZE of REQUEST (R185). -/
def execTxRequest (s : State) : Result State := serializeInto (frameTypeCode .request) s
/-- SERIALIZE of DATA (R186). -/
def execTxData (s : State) : Result State := serializeInto (frameTypeCode .data) s
/-- SERIALIZE of STOP (R187). -/
def execTxStop (s : State) : Result State := serializeInto (frameTypeCode .stop) s
/-- SERIALIZE of DROP (R188). -/
def execTxDrop (s : State) : Result State := serializeInto (frameTypeCode .drop) s
/-- SERIALIZE of an unsupported code (R189). -/
def execSerializeUnsupported (type : Byte) (s : State) : Result State := serializeInto type s

/-! ### PARSE -/

/-- The Frame view of received bytes (30_encoding.md R126). -/
structure Frame where
  type : FrameType
  dataSize : Nat
  data : List Byte
  deriving DecidableEq, Repr

/-- What PARSE ends with. -/
inductive ParseResult where
  | frame (f : Frame)
  | error (e : Status)
  deriving DecidableEq, Repr

/-- PARSE (R195). Neither the data section, nor bytes 3 to 7, nor the trailer is read (R196). -/
def parse (f : List Byte) : ParseResult :=
  if f.length < minFrame then .error .truncated
  else
    match frameTypeOf (byteAt f 0) with
    | none => .error .unsupportedFrameType
    | some T => .frame ⟨T, rdLe16 f 1, (f.drop headerSize).take (f.length - minFrame)⟩

end Sys2Proof.Machine
end

