-- ==== Sys2Proof/Machine/Flags.lean ====
section
/-! DEFINITION. The 1-bit Session flags an operation writes (10_state.md R44, R45; there are no arithmetic flags), and
the numbers of the status and signal codes. -/

namespace Sys2Proof.Machine

def setUserHalt (v : Bool) (s : State) : State := { s with S := { s.S with userHalt := v } }

def setUserReady (v : Bool) (s : State) : State := { s with S := { s.S with userReady := v } }

/-- Status codes (30_encoding.md R127). -/
def statusCode : Status → Byte
  | .ok => 0 | .invalidChannel => 1 | .capacityExceeded => 2 | .sizeExceeded => 3 | .bufferTooSmall => 4
  | .truncated => 5 | .unsupportedFrameType => 6 | .lengthOverflow => 7

/-- Signal codes (30_encoding.md R128). -/
def signalCode : Signal → Byte
  | .stop => 0 | .start => 1

end Sys2Proof.Machine
end

