-- ==== Sys2Proof/Machine/Connection.lean ====
section
/-! DEFINITION. The Connection State Machine (43_state_machine.md): transmission, the halt service, the received
frames, and the application's operations. -/

namespace Sys2Proof.Machine

/-- Hand the transmit buffer over: a frame goes to `TX`, a failure is reported on `ERR` (R232). -/
def handOver (s : State) : State :=
  match s.txBuf with
  | some (.frame f) => emit (.tx f) (setTxBuf none s)
  | some (.error e) => emit (.err e) (setTxBuf none s)
  | none => s

/-- TRANSMIT(T) (R232). -/
def transmit (T : FrameType) (s : State) : Result State :=
  andThen (serializeInto (frameTypeCode T) s) fun t => .next (handOver t)

/-- ServiceHalt (R233). -/
def serviceHalt (s : State) : Result State :=
  if s.S.conn = .transmitting ∧ s.S.userHalt = true then
    andThen (transmit .stop s) fun t => .next (setUserHalt false (setConn .connected t))
  else .next s

/-! ### Received frames (R234 to R241) -/

/-- RxSync (R234). -/
def onSync (s : State) : Result State :=
  match s.S.conn with
  | .idle => transmit .syncResp (setConn .sync s)
  | .sync | .connected | .transmitting => .next s

/-- RxAck (R236). -/
def onAck (s : State) : State :=
  match s.S.conn with
  | .sync => setConn .connected s
  | .idle | .connected | .transmitting => s

/-- RxRequest (R237). -/
def onRequest (s : State) : State :=
  match s.S.conn with
  | .connected => emit (.sig .start) (setConn .transmitting s)
  | .idle | .sync | .transmitting => s

/-- RxStop (R239). -/
def onStop (s : State) : State :=
  match s.S.conn with
  | .transmitting => emit (.sig .stop) s
  | .idle | .sync | .connected => s

/-- RxDrop (R240, R248). -/
def onDrop (s : State) : Result State :=
  let t := match s.S.conn with
    | .transmitting => emit (.sig .stop) s
    | .idle | .sync | .connected => s
  transmit t.cfg.dropAckType (setConn .idle t)

/-- RX SYNC (R234). The halt service is FRAME_RECEIVED's, before the row's own handling (R231; log 12). -/
def execRxSync (_ : RxFrame) (s : State) : Result State := onSync s
/-- RX SYNC_RESP: ignored in every state (R235). -/
def execRxSyncResp (_ : RxFrame) (s : State) : Result State := .next s
/-- RX ACK (R236). -/
def execRxAck (_ : RxFrame) (s : State) : Result State := .next (onAck s)
/-- RX REQUEST (R237). -/
def execRxRequest (_ : RxFrame) (s : State) : Result State := .next (onRequest s)
/-- RX DATA: ignored in every state (R238). -/
def execRxData (_ : RxFrame) (s : State) : Result State := .next s
/-- RX STOP (R239). -/
def execRxStop (_ : RxFrame) (s : State) : Result State := .next (onStop s)
/-- RX DROP (R240). -/
def execRxDrop (_ : RxFrame) (s : State) : Result State := onDrop s
/-- A frame of type NONE: PARSE rejects it and it is ignored (R241). -/
def execRxNone (_ : RxFrame) (s : State) : Result State := .next s
/-- A frame of a reserved type: PARSE rejects it and it is ignored (R241). -/
def execRxReserved (_ : Byte) (_ : RxFrame) (s : State) : Result State := .next s

/-- FRAME_RECEIVED(f) (R231): the halt service, PARSE, and the handling of the frame's type. -/
def frameReceived (f : List Byte) (s : State) : Result State :=
  andThen (serviceHalt s) fun s =>
    match parse f with
    | .error _ => .next s
    | .frame r =>
      match r.type with
      | .sync => onSync s
      | .syncResp => .next s
      | .ack => .next (onAck s)
      | .request => .next (onRequest s)
      | .data => .next s
      | .stop => .next (onStop s)
      | .drop => onDrop s

/-! ### Application operations (R243 to R245) -/

/-- NOTIFY_READY (R243). -/
def execNotifyReady (s : State) : Result State :=
  admitted s fun s => andThen (serviceHalt s) fun t => retStatus .ok (setUserReady true t)

/-- The latch of NOTIFY_HALT, and its service under IMMEDIATE (R244). -/
def latchHalt (s : State) : Result State :=
  if s.S.conn = .transmitting then
    match s.cfg.haltService with
    | .nextEvent => .next (setUserHalt true s)
    | .immediate => serviceHalt (setUserHalt true s)
  else .next s

/-- NOTIFY_HALT (R244). -/
def execNotifyHalt (s : State) : Result State :=
  admitted s fun s => andThen (serviceHalt s) fun t => andThen (latchHalt t) fun u => retStatus .ok u

/-- SEND_ALL (R245): a failure is the command's status, with no `ERR` output; no halt service. -/
def execSendAll (s : State) : Result State :=
  admitted s fun s =>
    andThen (serializeInto (frameTypeCode .data) s) fun t =>
      match t.txBuf with
      | some (.error e) => raise e (setTxBuf none t)
      | some (.frame _) | none => retStatus .ok (handOver t)

end Sys2Proof.Machine
end

