-- ==== Sys2Proof/Machine/Assembler.lean ====
section
/-! DEFINITION. The Receive Assembler (42_receive_assembler.md). -/

namespace Sys2Proof.Machine

/-- The overflow discard and the append of one byte (R210, R211). -/
def accumulate (b : Byte) (S : Session) : Session :=
  appendRx b (if S.rxIdx.val = recvBufferSize - 1 then clearRx S else S)

/-- At least 11 bytes are accumulated and the last three are the terminator (R212). -/
def terminated (S : Session) : Bool :=
  decide (minFrame ≤ S.rxIdx.val) && (received S).drop (S.rxIdx.val - 3) == eom

/-- Deliver the accumulated frame and consume it (R213). -/
def deliver (s : State) : Result State :=
  andThen (frameReceived (received s.S) s) fun t => .next (setSession (clearRx t.S) t)

/-- RX_BYTE (R210): masked on entry, armed again at its end (R214). -/
def execRxByte (b : Byte) (s : State) : Result State :=
  admitted s fun s =>
    if s.S.rxArmed = false then .refused .receptionDisarmed
    else
      let t := setSession (accumulate b (enterReceive s).S) s
      andThen (if terminated t.S then deliver t else .next t) fun u => .next (leaveReceive u)

end Sys2Proof.Machine
end

