-- ==== Sys2Proof/Machine/Control.lean ====
section
/-! DEFINITION. RESET (70_reset_and_hazards.md) and the reserved command opcodes (30_encoding.md R132). -/

namespace Sys2Proof.Machine

/-- RESET(n) (R300, R304): the whole Session is made anew, `BUF` is not touched, nothing is output. Admitted in every
state, before the first RESET too (R302). -/
def execReset (n : Byte) (s : State) : Result State :=
  if h : n.toNat < 33 then .next (setSession (Session.afterReset ⟨n.toNat, h⟩) s)
  else .refused (.resetOperandOutOfRange n)

/-- A reserved command opcode has no step (30_encoding.md R132). -/
def execCmdReserved (op : Byte) (_ : State) : Result State := .refused (.reservedCommand op)

end Sys2Proof.Machine
end

