-- ==== Sys2Proof/Machine/Registry.lean ====
section
/-! DEFINITION. The Channel Registry operations (40_channel_registry.md). -/

namespace Sys2Proof.Machine

/-- The registry ENABLE leaves: the slot installed or replaced, the enabled count and the reserved size (R151). -/
def installSlot (S : Session) (id base capacity : Nat) (dataType : Byte) : Session :=
  let old := slotAt S id
  { setSlot S id ⟨true, dataType, capacity, 0, base⟩ with
    enabledCount := if old.enabled then S.enabledCount else S.enabledCount + 1
    reservedSize := (if old.enabled then S.reservedSize - old.capacity else S.reservedSize) + capacity }

/-- The registry DISABLE leaves (R152). -/
def removeSlot (S : Session) (id : Nat) : Session :=
  { setSlot S id Slot.empty with
    enabledCount := S.enabledCount - 1
    reservedSize := S.reservedSize - (slotAt S id).capacity }

/-- Set a slot's staged size, nothing else (R153, R154). -/
def stageSlot (S : Session) (id n : Nat) : Session := setSlot S id { slotAt S id with stagedSize := n }

/-- ENABLE (R151). -/
def execEnable (id : Byte) (base : Nat) (capacity : BitVec 32) (dataType : Byte) (s : State) : Result State :=
  admitted s fun s =>
    if inRange s.S id = false then raise .invalidChannel s
    else if maxDataSize < s.S.reservedSize + capacity.toNat then raise .capacityExceeded s
    else retStatus .ok (setSession (installSlot s.S id.toNat base capacity.toNat dataType) s)

/-- DISABLE (R152). -/
def execDisable (id : Byte) (s : State) : Result State :=
  admitted s fun s =>
    if usable s.S id = false then raise .invalidChannel s
    else retStatus .ok (setSession (removeSlot s.S id.toNat) s)

/-- WRITE_STAGED (R153). -/
def execWriteStaged (id : Byte) (bytes : List Byte) (s : State) : Result State :=
  admitted s fun s =>
    if usable s.S id = false then raise .invalidChannel s
    else if (slotAt s.S id.toNat).capacity < bytes.length then raise .sizeExceeded s
    else andThen (writeBytes (slotAt s.S id.toNat).base bytes s) fun t =>
      retStatus .ok (setSession (stageSlot t.S id.toNat bytes.length) t)

/-- CLEAR_STAGED (R154). -/
def execClearStaged (id : Byte) (s : State) : Result State :=
  admitted s fun s =>
    if usable s.S id = false then raise .invalidChannel s
    else andThen (writeBytes (slotAt s.S id.toNat).base (List.replicate (slotAt s.S id.toNat).capacity 0) s) fun t =>
      retStatus .ok (setSession (stageSlot t.S id.toNat 0) t)

/-- CLEAR_ALL (R155). -/
def execClearAll (s : State) : Result State :=
  admitted s fun s =>
    retStatus .ok (setSession
      { s.S with slots := Vector.replicate 32 Slot.empty, enabledCount := 0, reservedSize := 0 } s)

end Sys2Proof.Machine
end

