-- ==== Sys2Proof/Machine/Dispatch.lean ====
section
/-! DEFINITION. One meaning for each instruction. -/

namespace Sys2Proof.Machine

def exec (i : Instr) (s : State) : Host.Outcome State Fault Refusal :=
  match i with
  | .enable id base capacity dataType => Sys2Proof.Machine.execEnable id base capacity dataType s
  | .disable id => Sys2Proof.Machine.execDisable id s
  | .writeStaged id bytes => Sys2Proof.Machine.execWriteStaged id bytes s
  | .clearStaged id => Sys2Proof.Machine.execClearStaged id s
  | .clearAll => Sys2Proof.Machine.execClearAll s
  | .sendAll => Sys2Proof.Machine.execSendAll s
  | .notifyReady => Sys2Proof.Machine.execNotifyReady s
  | .notifyHalt => Sys2Proof.Machine.execNotifyHalt s
  | .cmdReserved op => Sys2Proof.Machine.execCmdReserved op s
  | .rxByte b => Sys2Proof.Machine.execRxByte b s
  | .reset n => Sys2Proof.Machine.execReset n s
  | .rxNone f => Sys2Proof.Machine.execRxNone f s
  | .rxSync f => Sys2Proof.Machine.execRxSync f s
  | .rxSyncResp f => Sys2Proof.Machine.execRxSyncResp f s
  | .rxAck f => Sys2Proof.Machine.execRxAck f s
  | .rxRequest f => Sys2Proof.Machine.execRxRequest f s
  | .rxData f => Sys2Proof.Machine.execRxData f s
  | .rxStop f => Sys2Proof.Machine.execRxStop f s
  | .rxDrop f => Sys2Proof.Machine.execRxDrop f s
  | .rxReserved type f => Sys2Proof.Machine.execRxReserved type f s
  | .txSync => Sys2Proof.Machine.execTxSync s
  | .txSyncResp => Sys2Proof.Machine.execTxSyncResp s
  | .txAck => Sys2Proof.Machine.execTxAck s
  | .txRequest => Sys2Proof.Machine.execTxRequest s
  | .txData => Sys2Proof.Machine.execTxData s
  | .txStop => Sys2Proof.Machine.execTxStop s
  | .txDrop => Sys2Proof.Machine.execTxDrop s
  | .serializeUnsupported type => Sys2Proof.Machine.execSerializeUnsupported type s

end Sys2Proof.Machine
end

