-- ==== Sys2Proof/Machine/Step.lean ====
section
/-! DEFINITION. One step: the next event of the input sequence, processed atomically (00_scope.md R7, 10_state.md R41). -/

namespace Sys2Proof.Machine

/-- Run the instruction that bytes at a port present, with the events after it left to come. -/
def runBytes (p : Port) (bs : List Byte) (es : List Event) (s : State) : Result State :=
  andThen (fetch s.cfg p bs es) fun r => exec r.1 { s with input := r.2 }

/-- Without an event the engine is idle and nothing changes (60_exceptions.md R287). A host write of `BUF` is a step of
its own (20_memory.md R87). -/
def step (s : State) : Host.Outcome State Fault Refusal :=
  match s.input with
  | [] => .next s
  | .cmd bs :: es => runBytes .cmd bs es s
  | .rx b :: es => runBytes .rx [b] es s
  | .reset n :: es => runBytes .reset [n] es s
  | .bufWrite a v :: es => memWrite a v { s with input := es }

/-- The application presents the command of a table word next (log 9). -/
def State.withFetchWord (s : State) (nbits w : Nat) : State :=
  { s with input := .cmd (tableWordBytes s.cfg nbits w) :: s.input }

end Sys2Proof.Machine
end

