-- ==== Sys2Proof/Safety.lean ====
section
/-! DEFINITION. What holds at every step boundary (10_state.md R61 to R64), and the words statements use for what an
operation leaves alone. -/

namespace Sys2Proof.Machine

/-! ### The invariant -/

/-- The registry sums (10_state.md R61, R54, R55). -/
def RegistryOk (S : Session) : Prop :=
  S.reservedSize = ((S.slots.toList.filter (·.enabled)).map (·.capacity)).sum ∧
  S.reservedSize ≤ maxDataSize ∧
  S.enabledCount = S.slots.toList.countP (·.enabled)

/-- The slots (10_state.md R62, R53; R52 for the width of `base`). -/
def SlotsOk (cfg : Config) (S : Session) : Prop :=
  ∀ i < 32,
    ((slotAt S i).enabled = false → slotAt S i = Slot.empty) ∧
    ((slotAt S i).enabled = true → i < S.totalChannels.val ∧ (slotAt S i).base < 2 ^ cfg.addrW) ∧
    (slotAt S i).stagedSize ≤ (slotAt S i).capacity

/-- The latched Halt (10_state.md R63). -/
def HaltOk (cfg : Config) (S : Session) : Prop :=
  (S.userHalt = true → S.conn = .transmitting) ∧ (cfg.haltService = .immediate → S.userHalt = false)

/-- The Receive Assembler (10_state.md R64, R58): zeros above the fill index, no terminator left unconsumed, armed. -/
def ReceiveOk (S : Session) : Prop :=
  S.rxBuf.toList.drop S.rxIdx.val = List.replicate (1024 - S.rxIdx.val) 0 ∧ terminated S = false ∧ S.rxArmed = true

/-- `BUF` is in its canonical form and inside its address space (20_memory.md R83, R84). -/
def BufOk (s : State) : Prop := Memory.wf s.buf ∧ Memory.within s.cfg.addrW s.buf

/-- Every staged byte lies inside `BUF`: SERIALIZE can read all it needs (20_memory.md R84, R86). -/
def StagedReadable (s : State) : Prop :=
  ∀ i < 32, ∀ k < (slotAt s.S i).stagedSize, (slotAt s.S i).base + k < 2 ^ s.cfg.addrW

/-- The invariant of every step boundary. What concerns the Session holds after the first RESET; before it the
Session is unspecified (70_reset_and_hazards.md R302). The transmit buffer holds nothing between steps (10_state.md
R59); `running` stays 0 (R46). -/
def Inv (s : State) : Prop :=
  BufOk s ∧ s.txBuf = none ∧
  (s.S.initialized = true →
    RegistryOk s.S ∧ SlotsOk s.cfg s.S ∧ HaltOk s.cfg s.S ∧ ReceiveOk s.S ∧ StagedReadable s ∧ s.S.running = false)

/-! ### Frames -/

/-- Every byte of `BUF` reads as before. -/
def SameBuf (s t : State) : Prop := ∀ a, Memory.read t.buf a = Memory.read s.buf a

/-- What no operation but a step's fetch and SERIALIZE changes: the events to come, the parameters, the transmit buffer. -/
def SameRest (s t : State) : Prop := t.input = s.input ∧ t.cfg = s.cfg ∧ t.txBuf = s.txBuf

/-- The connection's fields of the Session. -/
def SameLink (S T : Session) : Prop :=
  T.conn = S.conn ∧ T.userHalt = S.userHalt ∧ T.userReady = S.userReady ∧ T.running = S.running ∧
  T.totalChannels = S.totalChannels ∧ T.initialized = S.initialized

/-- The registry's fields of the Session. -/
def SameRegistry (S T : Session) : Prop :=
  (∀ i, slotAt T i = slotAt S i) ∧ T.enabledCount = S.enabledCount ∧ T.reservedSize = S.reservedSize

/-- The Receive Assembler's fields of the Session. -/
def SameReceive (S T : Session) : Prop := T.rxBuf = S.rxBuf ∧ T.rxIdx = S.rxIdx ∧ T.rxArmed = S.rxArmed

/-- The operation appended exactly these outputs. -/
def Outputs (s t : State) (os : List Output) : Prop := t.trace = s.trace ++ os

/-- A failed command: its status is returned and nothing else is changed (00_scope.md R13). -/
def FailsWith (e : Status) (s t : State) : Prop :=
  t.S = s.S ∧ SameBuf s t ∧ SameRest s t ∧ Outputs s t [.ret e]

/-! ### Frames of the wire, as a reader of them sees them -/

/-- A frame of a type with a data section (30_encoding.md R110). -/
def wireFrame (cfg : Config) (type : Byte) (d : List Byte) : List Byte :=
  [type, BitVec.ofNat 8 d.length, BitVec.ofNat 8 (d.length / 256)] ++ cfg.hdrReserved.toList ++ d ++ [0x24, 0x25, 0x26]

/-- The output of a transmission (43_state_machine.md R232). -/
def sentOutput : CodecResult → Output
  | .frame f => .tx f
  | .error e => .err e

/-- What the transmission of STOP puts out; below 11 bytes of transmit buffer, which R9 excludes, it fails. -/
def stopOutput (cfg : Config) : Output :=
  if 11 ≤ cfg.txBufferSize then .tx (wireFrame cfg 6 []) else .err .bufferTooSmall

/-- One record of a DATA section (30_encoding.md R121). -/
structure Record where
  id : Byte
  size : Nat
  dataType : Byte
  sample : List Byte
  deriving DecidableEq, Repr

/-- A reader of the records of a DATA section, after its count byte. -/
def readRecords : Nat → List Byte → Option (List Record)
  | 0, [] => some []
  | n + 1, id :: lo :: hi :: ty :: ds =>
    let size := lo.toNat + 256 * hi.toNat
    if ds.length < size then none
    else (readRecords n (ds.drop size)).map fun rs => ⟨id, size, ty, ds.take size⟩ :: rs
  | 0, _ :: _ => none
  | _ + 1, [] | _ + 1, [_] | _ + 1, [_, _] | _ + 1, [_, _, _] => none

/-- The bytes of `BUF` a slot has staged (20_memory.md R86). -/
def stagedBytes (s : State) (i : Nat) : List Byte :=
  (List.range (slotAt s.S i).stagedSize).map fun k => Memory.read s.buf ((slotAt s.S i).base + k)

/-- The record slot `i` asks for (41_frame_codec.md R197). -/
def slotRecord (s : State) (i : Nat) : Record :=
  ⟨BitVec.ofNat 8 i, (slotAt s.S i).stagedSize, (slotAt s.S i).dataType, stagedBytes s i⟩

/-! ### Runs -/

/-- Run instructions one after another. -/
def execAll : List Instr → State → Result State
  | [], s => .next s
  | i :: is, s => andThen (exec i s) (execAll is)

/-- Present received bytes one after another (00_scope.md R14 `rx`). -/
def feed (bs : List Byte) (s : State) : Result State := execAll (bs.map .rxByte) s

end Sys2Proof.Machine
end

