-- ==== Sys2Proof/Certificates/Slice0/Obligations.lean ====
section
/-! DEFINITION. The statements about the model. D<n> is a decision of spec/92_eei_decisions.md, the spec's own choice;
"log <n>" is notes/assumptions/<n>.md, the model's. -/

open Sys2Proof Sys2Proof.Machine

/-! ### Encodings -/

/-- Every operand of every well-formed instruction survives encoding and decoding, with any bytes after it
(30_encoding.md R110, R130, R131; the command encoding is the spec's decision D3, ENABLE's length log 10, the bytes
after a command log 8). A received frame is delivered alone. -/
def Obligations.EveryEncodedInstructionDecodesBack : Prop :=
  ∀ (cfg : Config) (i : Instr) (rest : List Byte), i.wf cfg = true → (i.port = .frameRx → rest = []) →
    decode cfg i.port (encode cfg i ++ rest) = .ok (i, rest)

/-- What the decoder answers is well-formed and belongs to the port (30_encoding.md R131, R132, R117). -/
def Obligations.DecodedInstructionsAreWellFormed : Prop :=
  ∀ (cfg : Config) (p : Port) (bs rest : List Byte) (i : Instr),
    decode cfg p bs = .ok (i, rest) → i.wf cfg = true ∧ i.port = p

/-- The first byte falls under exactly one row of spec/opcode_table.json for its port, and that row has the decoded
instruction's mnemonic (30_encoding.md R116, R117, R130, R132; 41_frame_codec.md R189). -/
def Obligations.DecodingFollowsTheOpcodeTable : Prop :=
  ∀ (cfg : Config) (p : Port) (b : Byte) (bs rest : List Byte) (i : Instr),
    decode cfg p (b :: bs) = .ok (i, rest) →
    ∃ r, opcodeTable.filter (fun row => row.covers p b) = [r] ∧ r.mnemonic = i.mnemonic

/-- Except for received frames, whose trailer and length field are not checked (41_frame_codec.md R196), the bytes
consumed are the encoding of the decoded instruction: no two byte strings mean the same. -/
def Obligations.ConsumedBytesAreTheEncoding : Prop :=
  ∀ (cfg : Config) (p : Port) (bs rest : List Byte) (i : Instr), p ≠ .frameRx →
    decode cfg p bs = .ok (i, rest) → encode cfg i ++ rest = bs

/-- A word at each port: two commands and the RESET byte of spec/95_test_vectors.md section 2, the first byte of the
terminator as an RX event (section 5, A2), frame X7 (section 4), and the operand of SERIALIZE(5) (section 3, S6). -/
def Obligations.SpecVectorsDecode : Prop :=
  decode Config.rc .cmd [0x01, 0x00, 0x00, 0x10, 0x00, 0x00, 0x04, 0x00, 0x00, 0x00, 0x05]
    = .ok (.enable 0 0x1000 4 5, []) ∧
  decode Config.rc .cmd [0x03, 0x00, 0x04, 0x00, 0x00, 0x00, 0x01, 0x00, 0x02, 0x00]
    = .ok (.writeStaged 0 [1, 0, 2, 0], []) ∧
  decode Config.rc .reset [0x02] = .ok (.reset 2, []) ∧
  decode Config.rc .rx [0x24] = .ok (.rxByte 0x24, []) ∧
  decode Config.rc .frameRx [0x03, 0x34, 0x12, 0x00, 0x00, 0x00, 0x00, 0x00, 0x24, 0x25, 0x26]
    = .ok (.rxAck ⟨0x1234, #v[0, 0, 0, 0, 0], []⟩, []) ∧
  decode Config.rc .frameTx [0x05] = .ok (.txData, [])

/-- The command port's refusals (30_encoding.md R131, R132; the encoding is decision D3, the refusals D42): a reserved
opcode has no step, neither has a command that is shorter than its length, nor an ENABLE whose little-endian base is
2^ADDR_W or more. ENABLE's length is the model's 7 + A, the sum of R130's operands and one more than its length column
prints, so the refusal of 6 + A bytes is log 10's; which refusal is named, before the first RESET too, is log 14's. -/
def Obligations.ReservedAndShortCommandsAreRefused : Prop :=
  (∀ (op : Byte) (s : State), exec (.cmdReserved op) s = .refused (.reservedCommand op)) ∧
  (∀ (s : State) (bs : List Byte) (es : List Event), bs.length < commandLength s.cfg bs →
    step { s with input := .cmd bs :: es } = .refused .shortCommand) ∧
  (∀ (s : State) (id dataType : Byte) (base capacity rest : List Byte) (es : List Event),
    base.length = addrBytes s.cfg → capacity.length = 4 → 2 ^ s.cfg.addrW ≤ leNat base →
    step { s with input := .cmd (0x01 :: id :: (base ++ capacity ++ dataType :: rest)) :: es } =
      .refused .baseOutOfRange)

/-! ### Steps -/

/-- A step runs the instruction its event presents, with the event taken from the input; the bytes after a command stay
in front as the next one (00_scope.md R7; log 1, log 8). -/
def Obligations.StepRunsTheDecodedInstruction : Prop :=
  ∀ (s : State) (es : List Event) (i : Instr),
    (∀ bs rest, decode s.cfg .cmd bs = .ok (i, rest) →
      step { s with input := .cmd bs :: es } =
        exec i { s with input := if rest = [] then es else .cmd rest :: es }) ∧
    (∀ b, decode s.cfg .rx [b] = .ok (i, []) →
      step { s with input := .rx b :: es } = exec i { s with input := es }) ∧
    (∀ n, decode s.cfg .reset [n] = .ok (i, []) →
      step { s with input := .reset n :: es } = exec i { s with input := es })

/-- Presenting a well-formed instruction as its event makes the step that instruction (00_scope.md R7, R14). -/
def Obligations.StepOnAnEncodedEventRunsIt : Prop :=
  ∀ (s : State) (es : List Event) (e : Event) (i : Instr), i.wf s.cfg = true → eventOf s.cfg i = some e →
    step { s with input := e :: es } = exec i { s with input := es }

/-- Without an event nothing changes (60_exceptions.md R287). The application's own write of a `BUF` byte is a step that
writes that byte and nothing else, and has no step outside the address space (20_memory.md R84, R87; log 1, log 11). -/
def Obligations.IdleAndHostWriteSteps : Prop :=
  (∀ s : State, s.input = [] → step s = .next s) ∧
  (∀ (s : State) (es : List Event) (a : Nat) (v : Byte),
    (a < 2 ^ s.cfg.addrW → ∃ t, step { s with input := .bufWrite a v :: es } = .next t ∧
      Memory.read t.buf a = v ∧ (∀ c, c ≠ a → Memory.read t.buf c = Memory.read s.buf c) ∧
      t.S = s.S ∧ t.input = es ∧ t.cfg = s.cfg ∧ t.txBuf = s.txBuf ∧ t.trace = s.trace) ∧
    (2 ^ s.cfg.addrW ≤ a →
      step { s with input := .bufWrite a v :: es } = .refused (.bufAddressOutOfRange a)))

/-- Before the first RESET every engine event but RESET is refused (70_reset_and_hazards.md R302, decision D29), and a
received byte is refused while reception is not armed (42_receive_assembler.md R210). That a refusal stops the machine
is log 13. -/
def Obligations.InadmissibleEventsAreRefused : Prop :=
  (∀ (s : State) (e : Event) (es : List Event), s.S.initialized = false →
    (∀ n, e ≠ .reset n) → (∀ a v, e ≠ .bufWrite a v) →
    ∃ r, step { s with input := e :: es } = .refused r) ∧
  (∀ (s : State) (b : Byte) (es : List Event), s.S.initialized = true → s.S.rxArmed = false →
    step { s with input := .rx b :: es } = .refused .receptionDisarmed)

/-! ### Channel Registry -/

/-- ENABLE (40_channel_registry.md R151): the two failures in their order, else the slot is installed or replaced. The
check order (D19), the check against the old capacity (D18), the cleared staged size (D24) and the unchecked type (D20)
are the spec's own decisions. -/
def Obligations.EnableFollowsItsRule : Prop :=
  ∀ (s : State) (id : Byte) (base : Nat) (capacity : BitVec 32) (dataType : Byte), s.S.initialized = true →
    ∃ t, exec (.enable id base capacity dataType) s = .next t ∧
      (if s.S.totalChannels.val ≤ id.toNat then FailsWith .invalidChannel s t
       else if 65536 < s.S.reservedSize + capacity.toNat then FailsWith .capacityExceeded s t
       else
        slotAt t.S id.toNat = ⟨true, dataType, capacity.toNat, 0, base⟩ ∧
        (∀ j, j ≠ id.toNat → slotAt t.S j = slotAt s.S j) ∧
        t.S.enabledCount =
          (if (slotAt s.S id.toNat).enabled then s.S.enabledCount else s.S.enabledCount + 1) ∧
        t.S.reservedSize =
          (if (slotAt s.S id.toNat).enabled then s.S.reservedSize - (slotAt s.S id.toNat).capacity
           else s.S.reservedSize) + capacity.toNat ∧
        SameLink s.S t.S ∧ SameReceive s.S t.S ∧ SameBuf s t ∧ SameRest s t ∧ Outputs s t [.ret .ok])

/-- DISABLE (R152): the id check (an error rather than a no-op is decision D21), else the slot is emptied. -/
def Obligations.DisableFollowsItsRule : Prop :=
  ∀ (s : State) (id : Byte), s.S.initialized = true →
    ∃ t, exec (.disable id) s = .next t ∧
      (if s.S.totalChannels.val ≤ id.toNat ∨ (slotAt s.S id.toNat).enabled = false then FailsWith .invalidChannel s t
       else
        slotAt t.S id.toNat = Slot.empty ∧ (∀ j, j ≠ id.toNat → slotAt t.S j = slotAt s.S j) ∧
        t.S.enabledCount = s.S.enabledCount - 1 ∧
        t.S.reservedSize = s.S.reservedSize - (slotAt s.S id.toNat).capacity ∧
        SameLink s.S t.S ∧ SameReceive s.S t.S ∧ SameBuf s t ∧ SameRest s t ∧ Outputs s t [.ret .ok])

/-- WRITE_STAGED (R153): the two failures in their order (D9); a refusal when a byte would fall outside `BUF`
(20_memory.md R84, D32); else exactly the bytes `[base, base + len)` are written (D23) and staged. -/
def Obligations.WriteStagedFollowsItsRule : Prop :=
  ∀ (s : State) (id : Byte) (bytes : List Byte), s.S.initialized = true →
    let c := slotAt s.S id.toNat
    let unusable := s.S.totalChannels.val ≤ id.toNat ∨ c.enabled = false
    (unusable → ∃ t, exec (.writeStaged id bytes) s = .next t ∧ FailsWith .invalidChannel s t) ∧
    (¬unusable → c.capacity < bytes.length →
      ∃ t, exec (.writeStaged id bytes) s = .next t ∧ FailsWith .sizeExceeded s t) ∧
    (¬unusable → bytes.length ≤ c.capacity → (∃ k < bytes.length, 2 ^ s.cfg.addrW ≤ c.base + k) →
      ∃ a, exec (.writeStaged id bytes) s = .refused (.bufAddressOutOfRange a)) ∧
    (¬unusable → bytes.length ≤ c.capacity → (∀ k < bytes.length, c.base + k < 2 ^ s.cfg.addrW) →
      ∃ t, exec (.writeStaged id bytes) s = .next t ∧
        (∀ k < bytes.length, bytes[k]? = some (Memory.read t.buf (c.base + k))) ∧
        (∀ a, a < c.base ∨ c.base + bytes.length ≤ a → Memory.read t.buf a = Memory.read s.buf a) ∧
        slotAt t.S id.toNat = { c with stagedSize := bytes.length } ∧
        (∀ j, j ≠ id.toNat → slotAt t.S j = slotAt s.S j) ∧
        t.S.enabledCount = s.S.enabledCount ∧ t.S.reservedSize = s.S.reservedSize ∧
        SameLink s.S t.S ∧ SameReceive s.S t.S ∧ SameRest s t ∧ Outputs s t [.ret .ok])

/-- CLEAR_STAGED (R154): the id check and the extent, all `capacity` bytes, are decision D22; a refusal when a byte
would fall outside `BUF` (20_memory.md R84, D32). The channel stays enabled. -/
def Obligations.ClearStagedFollowsItsRule : Prop :=
  ∀ (s : State) (id : Byte), s.S.initialized = true →
    let c := slotAt s.S id.toNat
    let unusable := s.S.totalChannels.val ≤ id.toNat ∨ c.enabled = false
    (unusable → ∃ t, exec (.clearStaged id) s = .next t ∧ FailsWith .invalidChannel s t) ∧
    (¬unusable → (∃ k < c.capacity, 2 ^ s.cfg.addrW ≤ c.base + k) →
      ∃ a, exec (.clearStaged id) s = .refused (.bufAddressOutOfRange a)) ∧
    (¬unusable → (∀ k < c.capacity, c.base + k < 2 ^ s.cfg.addrW) →
      ∃ t, exec (.clearStaged id) s = .next t ∧
        (∀ k < c.capacity, Memory.read t.buf (c.base + k) = 0) ∧
        (∀ a, a < c.base ∨ c.base + c.capacity ≤ a → Memory.read t.buf a = Memory.read s.buf a) ∧
        slotAt t.S id.toNat = { c with stagedSize := 0 } ∧
        (∀ j, j ≠ id.toNat → slotAt t.S j = slotAt s.S j) ∧
        t.S.enabledCount = s.S.enabledCount ∧ t.S.reservedSize = s.S.reservedSize ∧
        SameLink s.S t.S ∧ SameReceive s.S t.S ∧ SameRest s t ∧ Outputs s t [.ret .ok])

/-- CLEAR_ALL (R155): every slot empty, both sums zero, `BUF` untouched, always OK. -/
def Obligations.ClearAllFollowsItsRule : Prop :=
  ∀ s : State, s.S.initialized = true →
    ∃ t, exec .clearAll s = .next t ∧ (∀ i, slotAt t.S i = Slot.empty) ∧
      t.S.enabledCount = 0 ∧ t.S.reservedSize = 0 ∧
      SameLink s.S t.S ∧ SameReceive s.S t.S ∧ SameBuf s t ∧ SameRest s t ∧ Outputs s t [.ret .ok]

/-- The registry operations have no output but their status, and the halt service does not run (R157). -/
def Obligations.RegistryOperationsDoNoInputOutput : Prop :=
  ∀ (s t : State) (i : Instr),
    (∃ id base capacity dataType, i = .enable id base capacity dataType) ∨ (∃ id, i = .disable id) ∨
    (∃ id bytes, i = .writeStaged id bytes) ∨ (∃ id, i = .clearStaged id) ∨ i = .clearAll →
    exec i s = .next t →
    (∃ e, Outputs s t [.ret e]) ∧ SameLink s.S t.S ∧ SameReceive s.S t.S ∧ SameRest s t

/-- The registry operations are legal in every connection state and neither read nor write `conn` (R158). Once the
engine is initialized each answers, or is refused at a byte outside `BUF` (20_memory.md R84, decision D32), whatever
`conn` is; and with another connection state it does the same. -/
def Obligations.RegistryOperationsIgnoreTheConnectionState : Prop :=
  ∀ (s : State) (c : ConnState) (i : Instr),
    (∃ id base capacity dataType, i = .enable id base capacity dataType) ∨ (∃ id, i = .disable id) ∨
    (∃ id bytes, i = .writeStaged id bytes) ∨ (∃ id, i = .clearStaged id) ∨ i = .clearAll →
    (s.S.initialized = true →
      (∃ t, exec i s = .next t) ∨ (∃ a, exec i s = .refused (.bufAddressOutOfRange a))) ∧
    exec i { s with S := { s.S with conn := c } } =
      match exec i s with
      | .next t => .next { t with S := { t.S with conn := c } }
      | .fault f => .fault f
      | .refused r => .refused r

/-- A command that returns an error leaves `S` and `BUF` as they were (60_exceptions.md R272, 00_scope.md R13). -/
def Obligations.FailedCommandsChangeNothing : Prop :=
  ∀ (s t : State) (i : Instr) (os : List Output) (e : Status), i.port = .cmd → exec i s = .next t →
    Outputs s t (os ++ [.ret e]) → e ≠ .ok → t.S = s.S ∧ t.buf = s.buf ∧ os = []

/-- The registry sum invariant along any run of operations (10_state.md R61): `reservedSize` is the sum of the enabled
capacities and within the budget, `enabledCount` the number of enabled slots. -/
def Obligations.RegistrySumsHoldAlongEveryRun : Prop :=
  ∀ (is : List Instr) (s t : State), RegistryOk s.S → execAll is s = .next t → RegistryOk t.S

/-! ### Frame Codec -/

/-- SERIALIZE of the five types with an empty data section (41_frame_codec.md R182, R184, R185, R187, R188). Bytes 3 to
7 are the parameter HDR_RESERVED (30_encoding.md R113, decision D6), the bound is TX_BUFFER_SIZE (R192, D7); the field
that keeps the result is the model's (log 5). -/
def Obligations.SerializeOfEmptySections : Prop :=
  ∀ s : State,
    let result (code : Byte) : CodecResult :=
      if 11 ≤ s.cfg.txBufferSize then
        .frame ([code, 0, 0] ++ s.cfg.hdrReserved.toList ++ [0x24, 0x25, 0x26])
      else .error .bufferTooSmall
    exec .txSync s = .next { s with txBuf := some (result 1) } ∧
    exec .txAck s = .next { s with txBuf := some (result 3) } ∧
    exec .txRequest s = .next { s with txBuf := some (result 4) } ∧
    exec .txStop s = .next { s with txBuf := some (result 6) } ∧
    exec .txDrop s = .next { s with txBuf := some (result 7) }

/-- SERIALIZE of SYNC_RESP (R183): one data byte, `totalChannels`. The reserved bytes are decision D6, the bound
TX_BUFFER_SIZE is D7; the field that keeps the result is the model's (log 5). -/
def Obligations.SerializeOfSyncResp : Prop :=
  ∀ s : State,
    let result : CodecResult :=
      if 12 ≤ s.cfg.txBufferSize then
        .frame ([2, 1, 0] ++ s.cfg.hdrReserved.toList ++ [BitVec.ofNat 8 s.S.totalChannels.val, 0x24, 0x25, 0x26])
      else .error .bufferTooSmall
    exec .txSyncResp s = .next { s with txBuf := some result }

/-- SERIALIZE of DATA (R186, R191 to R193; the overflow status and the check order are the spec's decisions D8 and D9):
the two length failures in their order, which read nothing; a refusal when a staged byte lies outside `BUF`
(20_memory.md R84, D32); else the count byte and one record for each staged slot in ascending order, with the bytes `BUF`
holds, whoever wrote them (R83). The field that keeps the result is the model's (log 5). -/
def Obligations.SerializeOfData : Prop :=
  ∀ s : State,
    let P := (List.range 32).filter fun i => decide (0 < (slotAt s.S i).stagedSize)
    let n := 1 + (P.map fun i => 4 + (slotAt s.S i).stagedSize).sum
    (65535 < n → exec .txData s = .next { s with txBuf := some (.error .lengthOverflow) }) ∧
    (n ≤ 65535 → s.cfg.txBufferSize < 11 + n →
      exec .txData s = .next { s with txBuf := some (.error .bufferTooSmall) }) ∧
    (n ≤ 65535 → 11 + n ≤ s.cfg.txBufferSize →
      (∃ i ∈ P, ∃ k < (slotAt s.S i).stagedSize, 2 ^ s.cfg.addrW ≤ (slotAt s.S i).base + k) →
      ∃ a, exec .txData s = .refused (.bufAddressOutOfRange a)) ∧
    (n ≤ 65535 → 11 + n ≤ s.cfg.txBufferSize →
      (∀ i ∈ P, ∀ k < (slotAt s.S i).stagedSize, (slotAt s.S i).base + k < 2 ^ s.cfg.addrW) →
      exec .txData s = .next { s with txBuf := some (.frame (wireFrame s.cfg 5
        (BitVec.ofNat 8 P.length :: P.flatMap fun i =>
          [BitVec.ofNat 8 i, BitVec.ofNat 8 (slotAt s.S i).stagedSize,
            BitVec.ofNat 8 ((slotAt s.S i).stagedSize / 256), (slotAt s.S i).dataType] ++ stagedBytes s i))) })

/-- SERIALIZE of an unsupported code fails and builds nothing (R189); the field that keeps the error is the model's
(log 5). -/
def Obligations.SerializeOfUnsupportedCodes : Prop :=
  ∀ (s : State) (type : Byte), type.toNat = 0 ∨ 8 ≤ type.toNat →
    exec (.serializeUnsupported type) s = .next { s with txBuf := some (.error .unsupportedFrameType) }

/-- Every frame SERIALIZE builds has the layout of 30_encoding.md R110 with a `dataSize` that is its own data
section's length (R190), and fits the transmit buffer and the length field (00_scope.md R10). -/
def Obligations.SerializedFramesAreSelfConsistent : Prop :=
  ∀ (s : State) (type : Byte) (f : List Byte), serialize s type = .next (.frame f) →
    ∃ d : List Byte, f = [type, BitVec.ofNat 8 d.length, BitVec.ofNat 8 (d.length / 256)] ++
        s.cfg.hdrReserved.toList ++ d ++ [0x24, 0x25, 0x26] ∧
      d.length = rdLe16 f 1 ∧ f.length = 11 + d.length ∧ f.length ≤ s.cfg.txBufferSize ∧ f.length ≤ 65546

/-- PARSE (R195): the length is checked before the type (D9); type codes 1..7 are accepted (D10). -/
def Obligations.ParseFollowsItsRule : Prop :=
  ∀ f : List Byte,
    (f.length < 11 → parse f = .error .truncated) ∧
    (11 ≤ f.length → (byteAt f 0).toNat = 0 ∨ 8 ≤ (byteAt f 0).toNat → parse f = .error .unsupportedFrameType) ∧
    (11 ≤ f.length → 1 ≤ (byteAt f 0).toNat → (byteAt f 0).toNat ≤ 7 →
      ∃ r, parse f = .frame r ∧ frameTypeCode r.type = byteAt f 0 ∧
        r.dataSize = (byteAt f 1).toNat + 256 * (byteAt f 2).toNat)

/-- The round trip of R197: PARSE of a serialized frame gives back its type and its data section's length, and the
Frame view's slice (30_encoding.md R126) is that data section. -/
def Obligations.ParseRecoversASerializedFrame : Prop :=
  ∀ (s : State) (T : FrameType) (f : List Byte), serialize s (frameTypeCode T) = .next (.frame f) →
    ∃ d : List Byte, f = wireFrame s.cfg (frameTypeCode T) d ∧ parse f = .frame ⟨T, d.length, d⟩

/-- The second round trip of R197: the records read back from a serialized DATA frame are those of the slots with
something staged, in ascending order, each with its id, size, type and bytes. -/
def Obligations.DataFrameRecordsReadBack : Prop :=
  ∀ (s : State) (f : List Byte), serialize s 5 = .next (.frame f) →
    ∃ r, parse f = .frame r ∧
      readRecords (byteAt r.data 0).toNat (r.data.drop 1) =
        some (((List.range 32).filter fun i => decide (0 < (slotAt s.S i).stagedSize)).map (slotRecord s))

/-- In a state that meets the invariant SERIALIZE answers for every type and every received byte completes: no staged
byte is outside `BUF` (20_memory.md R84, R86; 42_receive_assembler.md R210). -/
def Obligations.SerializeAndReceptionAnswerUnderTheInvariant : Prop :=
  ∀ s : State, Inv s → s.S.initialized = true →
    (∀ type, ∃ r, serialize s type = .next r) ∧ (∀ b, ∃ t, exec (.rxByte b) s = .next t)

/-! ### Connection State Machine -/

/-- RX SYNC (43_state_machine.md R234), byte 0 = 0x01: in Idle to Sync with a SYNC_RESP, which fails only where the
transmit buffer is 11 bytes or less (R183; the report on `ERR` is decision D27); ignored elsewhere (D12). -/
def Obligations.RxSyncFollowsItsRule : Prop :=
  ∀ (s : State) (f : RxFrame),
    (∀ bs, 10 ≤ bs.length → decode s.cfg .frameRx (0x01 :: bs) = .ok (.rxSync (rxFrameOf (0x01 :: bs)), [])) ∧
    ∃ t, exec (.rxSync f) s = .next t ∧
    (s.S.conn ≠ .idle → t = s) ∧
    (s.S.conn = .idle → t.S = { s.S with conn := .sync } ∧ SameBuf s t ∧ t.input = s.input ∧ t.cfg = s.cfg ∧
      t.txBuf = none ∧
      Outputs s t [if 12 ≤ s.cfg.txBufferSize then .tx (wireFrame s.cfg 2 [BitVec.ofNat 8 s.S.totalChannels.val])
        else .err .bufferTooSmall])

/-- RX ACK (R236), byte 0 = 0x03: Sync to Connected, no output and no flag; nothing in the other states, the
table's empty cells (decision D12). -/
def Obligations.RxAckFollowsItsRule : Prop :=
  ∀ (s : State) (f : RxFrame),
    (∀ bs, 10 ≤ bs.length → decode s.cfg .frameRx (0x03 :: bs) = .ok (.rxAck (rxFrameOf (0x03 :: bs)), [])) ∧
    (s.S.conn = .sync → exec (.rxAck f) s = .next { s with S := { s.S with conn := .connected } }) ∧
    (s.S.conn ≠ .sync → exec (.rxAck f) s = .next s)

/-- RX REQUEST (R237), byte 0 = 0x04: Connected to Transmitting with one Start; nothing in the other states. -/
def Obligations.RxRequestFollowsItsRule : Prop :=
  ∀ (s : State) (f : RxFrame),
    (∀ bs, 10 ≤ bs.length → decode s.cfg .frameRx (0x04 :: bs) = .ok (.rxRequest (rxFrameOf (0x04 :: bs)), [])) ∧
    (s.S.conn = .connected → exec (.rxRequest f) s =
      .next { s with S := { s.S with conn := .transmitting }, trace := s.trace ++ [.sig .start] }) ∧
    (s.S.conn ≠ .connected → exec (.rxRequest f) s = .next s)

/-- RX STOP (R239), byte 0 = 0x06: in Transmitting a signal Stop each time, and nothing else changes; nothing in the
other states, the table's empty cells (decision D12). -/
def Obligations.RxStopFollowsItsRule : Prop :=
  ∀ (s : State) (f : RxFrame),
    (∀ bs, 10 ≤ bs.length → decode s.cfg .frameRx (0x06 :: bs) = .ok (.rxStop (rxFrameOf (0x06 :: bs)), [])) ∧
    (s.S.conn = .transmitting → exec (.rxStop f) s = .next { s with trace := s.trace ++ [.sig .stop] }) ∧
    (s.S.conn ≠ .transmitting → exec (.rxStop f) s = .next s)

/-- RX DROP (R240), byte 0 = 0x07: to Idle from every state, with the signal Stop first from Transmitting, and one acknowledgment, the
transmission of the frame type DROP_ACK_TYPE (R248, decision D13): a frame with an empty section, a SYNC_RESP, or
SERIALIZE's answer for DATA, which needs the staged bytes inside `BUF`. -/
def Obligations.RxDropFollowsItsRule : Prop :=
  ∀ (s : State) (f : RxFrame), (s.cfg.dropAckType = .data → StagedReadable s) →
    (∀ bs, 10 ≤ bs.length → decode s.cfg .frameRx (0x07 :: bs) = .ok (.rxDrop (rxFrameOf (0x07 :: bs)), [])) ∧
    ∃ t r, exec (.rxDrop f) s = .next t ∧ t.S = { s.S with conn := .idle } ∧ t.buf = s.buf ∧ t.input = s.input ∧
      t.cfg = s.cfg ∧ t.txBuf = none ∧
      Outputs s t ((if s.S.conn = .transmitting then [.sig .stop] else []) ++ [sentOutput r]) ∧
      (match s.cfg.dropAckType with
        | .data => serialize s 5 = .next r
        | .syncResp => r = if 12 ≤ s.cfg.txBufferSize then
            .frame (wireFrame s.cfg 2 [BitVec.ofNat 8 s.S.totalChannels.val]) else .error .bufferTooSmall
        | .sync | .ack | .request | .stop | .drop => r = if 11 ≤ s.cfg.txBufferSize then
            .frame (wireFrame s.cfg (frameTypeCode s.cfg.dropAckType) []) else .error .bufferTooSmall)

/-- RX SYNC_RESP (frame type 2) and RX DATA (frame type 5): no state change and no output, in every state (R235, R238). -/
def Obligations.SyncRespAndDataFramesAreIgnored : Prop :=
  ∀ (s : State) (f : RxFrame),
    (∀ bs, 10 ≤ bs.length → decode s.cfg .frameRx (0x02 :: bs) = .ok (.rxSyncResp (rxFrameOf (0x02 :: bs)), [])) ∧
    (∀ bs, 10 ≤ bs.length → decode s.cfg .frameRx (0x05 :: bs) = .ok (.rxData (rxFrameOf (0x05 :: bs)), [])) ∧
    exec (.rxSyncResp f) s = .next s ∧ exec (.rxData f) s = .next s

/-- The frames PARSE rejects, byte 0 = 0x00 or from 0x08: no state change and no output, in every state (R241, decision
D11; that PARSE rejects these types is D10). -/
def Obligations.RejectedFramesAreIgnored : Prop :=
  ∀ (s : State) (f : RxFrame) (type : Byte), 8 ≤ type.toNat →
    (∀ bs, 10 ≤ bs.length → decode s.cfg .frameRx (0x00 :: bs) = .ok (.rxNone (rxFrameOf (0x00 :: bs)), [])) ∧
    (∀ bs, 10 ≤ bs.length →
      decode s.cfg .frameRx (type :: bs) = .ok (.rxReserved type (rxFrameOf (type :: bs)), [])) ∧
    exec (.rxNone f) s = .next s ∧ exec (.rxReserved type f) s = .next s

/-- FRAME_RECEIVED (R231): the halt service, then the row of the frame's type in the state the service leaves. That
the service comes first is decision D14. -/
def Obligations.FrameReceivedRunsTheRowOfItsType : Prop :=
  ∀ (s : State) (f : List Byte) (i : Instr) (rest : List Byte), decode s.cfg .frameRx f = .ok (i, rest) →
    frameReceived f s =
      match serviceHalt s with
      | .next t => exec i t
      | .fault x => .fault x
      | .refused r => .refused r

/-- Of a received frame only byte 0 matters (30_encoding.md R113, R126; 43_state_machine.md R231). -/
def Obligations.FrameHandlingReadsOnlyTheTypeByte : Prop :=
  ∀ (s : State) (f g : List Byte), 11 ≤ f.length → 11 ≤ g.length → byteAt f 0 = byteAt g 0 →
    frameReceived f s = frameReceived g s

/-- The halt service (R233): with a Halt latched in Transmitting it sends STOP, goes to Connected and clears the latch;
otherwise it does nothing. -/
def Obligations.HaltServiceFollowsItsRule : Prop :=
  ∀ s : State,
    (s.S.conn = .transmitting → s.S.userHalt = true → ∃ t, serviceHalt s = .next t ∧
      t.S = { s.S with conn := .connected, userHalt := false } ∧ t.buf = s.buf ∧ t.input = s.input ∧ t.cfg = s.cfg ∧
      t.txBuf = none ∧ Outputs s t [stopOutput s.cfg]) ∧
    (s.S.conn ≠ .transmitting ∨ s.S.userHalt = false → serviceHalt s = .next s)

/-- NOTIFY_READY (R243): the halt service, then `userReady` is set in every connection state (decision D16). -/
def Obligations.NotifyReadyFollowsItsRule : Prop :=
  ∀ s : State, s.S.initialized = true →
    ∃ t, exec .notifyReady s = .next t ∧ t.buf = s.buf ∧ t.input = s.input ∧ t.cfg = s.cfg ∧
      (if s.S.conn = .transmitting ∧ s.S.userHalt = true then
        t.S = { s.S with conn := .connected, userHalt := false, userReady := true } ∧ t.txBuf = none ∧
        Outputs s t [stopOutput s.cfg, .ret .ok]
       else t.S = { s.S with userReady := true } ∧ t.txBuf = s.txBuf ∧ Outputs s t [.ret .ok])

/-- NOTIFY_HALT (R244) for both values of HALT_SERVICE: an earlier Halt is serviced first (D14); in Transmitting the
Halt is latched, and serviced at once under IMMEDIATE; elsewhere it is ignored (D15). -/
def Obligations.NotifyHaltFollowsItsRule : Prop :=
  ∀ s : State, s.S.initialized = true →
    ∃ t, exec .notifyHalt s = .next t ∧ t.buf = s.buf ∧ t.input = s.input ∧ t.cfg = s.cfg ∧
      (if s.S.conn = .transmitting ∧ (s.S.userHalt = true ∨ s.cfg.haltService = .immediate) then
        t.S = { s.S with conn := .connected, userHalt := false } ∧ t.txBuf = none ∧
        Outputs s t [stopOutput s.cfg, .ret .ok]
       else if s.S.conn = .transmitting then
        t.S = { s.S with userHalt := true } ∧ t.txBuf = s.txBuf ∧ Outputs s t [.ret .ok]
       else t.S = s.S ∧ t.txBuf = s.txBuf ∧ Outputs s t [.ret .ok])

/-- SEND_ALL (R245), in every connection state and without the halt service (decision D25). The codec's length failures,
in their order (41_frame_codec.md R191 to R193, D8, D9), are the status alone and need no byte of `BUF`; a staged byte
outside `BUF` is refused (20_memory.md R84, D32); with the staged bytes inside it is one DATA frame, that of SERIALIZE
of DATA, and OK, or the codec's error. `S` and `BUF` are not changed; the
transmit buffer is left empty (log 5). -/
def Obligations.SendAllFollowsItsRule : Prop :=
  ∀ s : State, s.S.initialized = true →
    let P := (List.range 32).filter fun i => decide (0 < (slotAt s.S i).stagedSize)
    let n := 1 + (P.map fun i => 4 + (slotAt s.S i).stagedSize).sum
    (65535 < n →
      exec .sendAll s = .next { s with txBuf := none, trace := s.trace ++ [.ret .lengthOverflow] }) ∧
    (n ≤ 65535 → s.cfg.txBufferSize < 11 + n →
      exec .sendAll s = .next { s with txBuf := none, trace := s.trace ++ [.ret .bufferTooSmall] }) ∧
    (n ≤ 65535 → 11 + n ≤ s.cfg.txBufferSize →
      (∃ i ∈ P, ∃ k < (slotAt s.S i).stagedSize, 2 ^ s.cfg.addrW ≤ (slotAt s.S i).base + k) →
      ∃ a, exec .sendAll s = .refused (.bufAddressOutOfRange a)) ∧
    (n ≤ 65535 → 11 + n ≤ s.cfg.txBufferSize → StagedReadable s →
      ∃ f, serialize s 5 = .next (.frame f) ∧
        exec .sendAll s = .next { s with txBuf := none, trace := s.trace ++ [.tx f, .ret .ok] }) ∧
    (StagedReadable s →
      ∃ t r, exec .sendAll s = .next t ∧ serialize s 5 = .next r ∧
        t.S = s.S ∧ t.buf = s.buf ∧ t.input = s.input ∧ t.cfg = s.cfg ∧ t.txBuf = none ∧
        Outputs s t (match r with
          | .frame f => [.tx f, .ret .ok]
          | .error e => [.ret e]))

/-- A latched Halt is serviced by the next state-machine event, and exactly one STOP frame is sent (R233; the property
the source states, and which events count is decision D14). A DROP-ack of type STOP would be a second one. -/
def Obligations.LatchedHaltSendsOneStopAtTheNextEvent : Prop :=
  ∀ (s t : State) (f : List Byte), s.cfg.Legal → s.cfg.dropAckType ≠ .stop → s.S.conn = .transmitting →
    s.S.userHalt = true →
    frameReceived f s = .next t ∨ exec .notifyReady s = .next t ∨ exec .notifyHalt s = .next t →
    t.S.userHalt = false ∧
    ∃ os, Outputs s t (.tx (wireFrame s.cfg 6 []) :: os) ∧ (∀ o ∈ os, ∀ d, o ≠ .tx (wireFrame s.cfg 6 d))

/-- From Idle the frames SYNC, ACK, REQUEST lead to Transmitting with exactly one Start (R234, R236, R237). -/
def Obligations.HandshakeReachesTransmittingWithOneStart : Prop :=
  ∀ (s : State) (f g h : RxFrame), s.S.conn = .idle →
    ∃ t, execAll [.rxSync f, .rxAck g, .rxRequest h] s = .next t ∧ t.S = { s.S with conn := .transmitting } ∧
      ∃ os, Outputs s t os ∧ os.count (.sig .start) = 1 ∧ os.count (.sig .stop) = 0

/-- Every step moves the connection along the table of section 2 or not at all (R242): DROP and RESET to Idle, and the
four arrows Idle, Sync, Connected, Transmitting, Connected. -/
def Obligations.ConnectionMovesAlongTheTable : Prop :=
  ∀ s t : State, step s = .next t →
    t.S.conn = s.S.conn ∨ t.S.conn = .idle ∨ (s.S.conn = .idle ∧ t.S.conn = .sync) ∨
    (s.S.conn = .sync ∧ t.S.conn = .connected) ∨ (s.S.conn = .connected ∧ t.S.conn = .transmitting) ∨
    (s.S.conn = .transmitting ∧ t.S.conn = .connected)

/-- Transmitting is left only by the halt service, to Connected, or by DROP or RESET, to Idle (R242): a received byte
leaves it only as the byte that completes a frame (42_receive_assembler.md R212), a DROP to Idle, or any frame that finds
a Halt latched. When a Halt is serviced is decision D14. -/
def Obligations.TransmittingIsLeftOnlyByHaltDropOrReset : Prop :=
  ∀ (s t : State) (i : Instr), exec i s = .next t → s.S.conn = .transmitting → t.S.conn ≠ .transmitting →
    (t.S.conn = .idle ∧
      ((∃ n, i = .reset n) ∨ (∃ f, i = .rxDrop f) ∨
       (∃ b, i = .rxByte b ∧ terminated (accumulate b s.S) = true ∧
         byteAt (received (accumulate b s.S)) 0 = 7))) ∨
    (t.S.conn = .connected ∧ t.S.userHalt = false ∧
      ((s.S.userHalt = true ∧
          (i = .notifyReady ∨ i = .notifyHalt ∨ ∃ b, i = .rxByte b ∧ terminated (accumulate b s.S) = true)) ∨
       (s.cfg.haltService = .immediate ∧ i = .notifyHalt)))

/-! ### Receive Assembler -/

/-- RX_BYTE that completes no frame (42_receive_assembler.md R210 to R212, R214): the byte is appended, or it is the
first of a new accumulation when the buffer was full; nothing is output, and reception is armed. -/
def Obligations.RxByteAccumulates : Prop :=
  ∀ (s : State) (b : Byte), s.S.initialized = true → s.S.rxArmed = true →
    let acc := if s.S.rxIdx.val = 1023 then [b] else received s.S ++ [b]
    ¬(11 ≤ acc.length ∧ acc.drop (acc.length - 3) = [0x24, 0x25, 0x26]) →
    ∃ t, exec (.rxByte b) s = .next t ∧ received t.S = acc ∧ t.S.rxIdx.val = acc.length ∧ t.S.rxArmed = true ∧
      SameLink s.S t.S ∧ SameRegistry s.S t.S ∧ t.buf = s.buf ∧ SameRest s t ∧ Outputs s t []

/-- RX_BYTE that completes a frame (R210, R212, R213, R214; the cleared buffer's zeros are decision D31): the frame is
handled with reception masked and every other field as it was, then the buffer is cleared and reception armed. -/
def Obligations.RxByteDeliversATerminatedFrame : Prop :=
  ∀ (s : State) (b : Byte), s.S.initialized = true → s.S.rxArmed = true →
    let acc := if s.S.rxIdx.val = 1023 then [b] else received s.S ++ [b]
    11 ≤ acc.length → acc.drop (acc.length - 3) = [0x24, 0x25, 0x26] →
    ∃ s1, received s1.S = acc ∧ s1.S.rxArmed = false ∧ SameLink s.S s1.S ∧ SameRegistry s.S s1.S ∧
      s1.buf = s.buf ∧ SameRest s s1 ∧ Outputs s s1 [] ∧
      exec (.rxByte b) s =
        match frameReceived acc s1 with
        | .next t => .next { t with S :=
            { t.S with rxBuf := Vector.replicate 1024 0, rxIdx := 0, rxArmed := true } }
        | .fault x => .fault x
        | .refused r => .refused r

/-- The overflow discard (R211): at 1023 accumulated bytes the next byte becomes byte 0 of a new accumulation. -/
def Obligations.OverflowDiscardsBeforeStoring : Prop :=
  ∀ (s : State) (b : Byte), s.S.initialized = true → s.S.rxArmed = true → s.S.rxIdx.val = 1023 →
    ∃ t, exec (.rxByte b) s = .next t ∧ t.S.rxIdx.val = 1 ∧ t.S.rxBuf.toList = b :: List.replicate 1023 0 ∧
      t.S.rxArmed = true ∧ SameLink s.S t.S ∧ SameRegistry s.S t.S ∧ t.buf = s.buf ∧ SameRest s t ∧ Outputs s t []

/-- Fewer than 11 bytes from an empty buffer never make a frame (R216). -/
def Obligations.FewerThanElevenBytesDeliverNothing : Prop :=
  ∀ (s : State) (bs : List Byte), s.S.initialized = true → s.S.rxArmed = true → s.S.rxIdx.val = 0 → bs.length < 11 →
    ∃ t, feed bs s = .next t ∧ received t.S = bs ∧ t.S.rxArmed = true ∧ SameLink s.S t.S ∧ SameRegistry s.S t.S ∧
      t.buf = s.buf ∧ SameRest s t ∧ Outputs s t []

/-- The round trip through the assembler (41_frame_codec.md R197): a frame of at most 1023 bytes with no earlier
terminator at a count from 11 on, fed byte by byte into an empty buffer, is delivered whole, once, by its last byte. -/
def Obligations.FedFrameIsDeliveredWhole : Prop :=
  ∀ (s : State) (f : List Byte), s.S.initialized = true → s.S.rxArmed = true → s.S.rxIdx.val = 0 →
    11 ≤ f.length → f.length ≤ 1023 → f.drop (f.length - 3) = [0x24, 0x25, 0x26] →
    (∀ c, 11 ≤ c → c < f.length → (f.take c).drop (c - 3) ≠ [0x24, 0x25, 0x26]) →
    ∃ s1, received s1.S = f ∧ s1.S.rxArmed = false ∧ SameLink s.S s1.S ∧ SameRegistry s.S s1.S ∧
      s1.buf = s.buf ∧ SameRest s s1 ∧ Outputs s s1 [] ∧
      feed f s =
        match frameReceived f s1 with
        | .next t => .next { t with S :=
            { t.S with rxBuf := Vector.replicate 1024 0, rxIdx := 0, rxArmed := true } }
        | .fault x => .fault x
        | .refused r => .refused r

/-! ### Reset -/

/-- RESET (70_reset_and_hazards.md R300, R304): every field of the Session at its reset value (those but Idle and the
disabled slots are decision D35), `BUF` and everything outside untouched, no output, from any state; an operand above 32
has no step (decision D28). -/
def Obligations.ResetFollowsItsRule : Prop :=
  ∀ (s : State) (n : Byte),
    (n.toNat ≤ 32 → ∃ t, exec (.reset n) s = .next t ∧
      t.S.conn = .idle ∧ t.S.userHalt = false ∧ t.S.userReady = false ∧ t.S.running = false ∧
      t.S.totalChannels.val = n.toNat ∧ (∀ i, slotAt t.S i = Slot.empty) ∧
      t.S.enabledCount = 0 ∧ t.S.reservedSize = 0 ∧ t.S.rxBuf.toList = List.replicate 1024 0 ∧ t.S.rxIdx.val = 0 ∧
      t.S.initialized = true ∧ t.S.rxArmed = true ∧
      t.buf = s.buf ∧ SameRest s t ∧ Outputs s t []) ∧
    (32 < n.toNat → exec (.reset n) s = .refused (.resetOperandOutOfRange n))

/-- The state after reset is what RESET of 32 leaves (70_reset_and_hazards.md R300; the operand is log 2, the unlisted
`BUF` log 6) and meets the
invariant (10_state.md R61 to R64). -/
def Obligations.ResetStateMeetsTheInvariant : Prop :=
  Inv State.reset ∧ exec (.reset 32) State.reset = .next State.reset

/-! ### Whole-machine rules -/

/-- Every step keeps the invariant (10_state.md R61 to R64, R46, R58, R59; 20_memory.md R83, R84): the registry sums, the
slots, the latched Halt, the receive buffer, the canonical `BUF`, staged bytes inside it, nothing left to hand over. -/
def Obligations.StepKeepsTheInvariant : Prop :=
  ∀ s t : State, Inv s → step s = .next t → Inv t

/-- In a state that meets the invariant a step stops only for what its event asks: a reserved or short command, a base or
a staging command that leaves `BUF`, RESET above 32, a host write outside `BUF` (30_encoding.md R131, R132; 20_memory.md
R84; 70_reset_and_hazards.md R304; decisions D28, D32, D42). Every other event completes: no error is fatal
(60_exceptions.md R272). The names of the refusals are log 13 and log 14. -/
def Obligations.StepsStopOnlyForTheirEventUnderTheInvariant : Prop :=
  ∀ (s : State) (e : Event) (es : List Event), Inv s → s.S.initialized = true →
    let r := step { s with input := e :: es }
    (∃ t, r = .next t) ∨
    (∃ bs, e = .cmd bs ∧
      ((∃ op rest, bs = op :: rest ∧ (op.toNat = 0 ∨ 9 ≤ op.toNat) ∧ r = .refused (.reservedCommand op)) ∨
       (bs.length < commandLength s.cfg bs ∧ r = .refused .shortCommand) ∨
       (byteAt bs 0 = 1 ∧ r = .refused .baseOutOfRange) ∨
       ((byteAt bs 0 = 3 ∨ byteAt bs 0 = 4) ∧ ∃ a, r = .refused (.bufAddressOutOfRange a)))) ∨
    (∃ n, e = .reset n ∧ 32 < n.toNat ∧ r = .refused (.resetOperandOutOfRange n)) ∨
    (∃ a v, e = .bufWrite a v ∧ 2 ^ s.cfg.addrW ≤ a ∧ r = .refused (.bufAddressOutOfRange a))

/-- No operation changes the parameters (10_state.md R65) or the events to come, takes back an output (00_scope.md R16)
or leaves the initialized Session (10_state.md R60). -/
def Obligations.OperationsKeepParametersInputAndTrace : Prop :=
  ∀ (s t : State) (i : Instr), exec i s = .next t →
    t.cfg = s.cfg ∧ t.input = s.input ∧ (∃ os, Outputs s t os) ∧ (s.S.initialized = true → t.S.initialized = true)

/-- Who writes the link's fields (10_state.md R40, R45 to R47): RESET alone changes `totalChannels` and `running`;
NOTIFY_READY alone sets `userReady` and RESET alone clears it; `userHalt` is set only by NOTIFY_HALT. -/
def Obligations.LinkFieldsAreWrittenOnlyByTheirOperations : Prop :=
  ∀ (s t : State) (i : Instr), exec i s = .next t → (∀ n, i ≠ .reset n) →
    t.S.totalChannels = s.S.totalChannels ∧ t.S.running = s.S.running ∧
    (t.S.userReady = s.S.userReady ∨ (i = .notifyReady ∧ t.S.userReady = true)) ∧
    (t.S.userHalt = true → s.S.userHalt = true ∨ i = .notifyHalt)

/-- Only WRITE_STAGED and CLEAR_STAGED change `BUF`, and only staged bytes are read (20_memory.md R86): with any other
contents in which the staged bytes are the same, every instruction does the same, and of `BUF` it leaves every byte as it
was or as it is in the first run. So no other byte's value is assumed (R83), whatever `State.reset` has there (log 6). -/
def Obligations.OnlyStagingCommandsWriteBufAndOnlyStagedBytesAreRead : Prop :=
  (∀ (s t : State) (i : Instr), exec i s = .next t → (∀ id bytes, i ≠ .writeStaged id bytes) →
    (∀ id, i ≠ .clearStaged id) → t.buf = s.buf) ∧
  (∀ (s : State) (m : Memory) (i : Instr),
    (∀ j < 32, ∀ k < (slotAt s.S j).stagedSize,
      Memory.read m ((slotAt s.S j).base + k) = Memory.read s.buf ((slotAt s.S j).base + k)) →
    match exec i s with
    | .next t => ∃ m', exec i { s with buf := m } = .next { t with buf := m' } ∧
        ∀ a, Memory.read m' a = Memory.read t.buf a ∨
          (Memory.read m' a = Memory.read m a ∧ Memory.read t.buf a = Memory.read s.buf a)
    | .fault f => exec i { s with buf := m } = .fault f
    | .refused r => exec i { s with buf := m } = .refused r)

/-- Only RX_BYTE and RESET write the Receive Assembler's state (10_state.md R57, R58; 20_memory.md R81). -/
def Obligations.OnlyRxByteAndResetWriteTheReceiveBuffer : Prop :=
  ∀ (s t : State) (i : Instr), exec i s = .next t → (∀ b, i ≠ .rxByte b) → (∀ n, i ≠ .reset n) →
    SameReceive s.S t.S

/-- Only the five registry operations and RESET write the registry (10_state.md R40); the staged size of a slot is not
cleared by transmission (R51). -/
def Obligations.OnlyRegistryOperationsWriteTheRegistry : Prop :=
  ∀ (s t : State) (i : Instr), exec i s = .next t →
    (∀ id base capacity dataType, i ≠ .enable id base capacity dataType) → (∀ id, i ≠ .disable id) →
    (∀ id bytes, i ≠ .writeStaged id bytes) → (∀ id, i ≠ .clearStaged id) → i ≠ .clearAll → (∀ n, i ≠ .reset n) →
    SameRegistry s.S t.S

/-- Staged data persists (70_reset_and_hazards.md R311): SEND_ALL does not unstage, and whatever instructions run after it
that are neither RESET nor a registry operation, the next SEND_ALL has the same outputs: only those stop or change what is
sent. The application's own writes of `BUF` are no instructions. -/
def Obligations.RepeatedSendAllSendsTheSamePayload : Prop :=
  ∀ (s t u : State) (is : List Instr) (os : List Output), exec .sendAll s = .next t → Outputs s t os →
    (∀ i ∈ is, (∀ id base capacity dataType, i ≠ .enable id base capacity dataType) ∧ (∀ id, i ≠ .disable id) ∧
      (∀ id bytes, i ≠ .writeStaged id bytes) ∧ (∀ id, i ≠ .clearStaged id) ∧ i ≠ .clearAll ∧ (∀ n, i ≠ .reset n)) →
    execAll is t = .next u →
    (∀ j, (slotAt u.S j).stagedSize = (slotAt s.S j).stagedSize) ∧
    ∃ v, exec .sendAll u = .next v ∧ Outputs u v os
end

