-- ==== Sys2Proof/Laws/Bytes.lean ====
section
/-! SUPPORT. Byte order and code numbers: what the helpers of Decode.lean give back. -/

namespace Sys2Proof

@[simp] theorem leBytes_length (k v : Nat) : (leBytes k v).length = k := by
  induction k generalizing v with
  | zero => rfl
  | succ k ih => simp [leBytes, ih]

theorem leNat_leBytes (k v : Nat) : leNat (leBytes k v) = v % 256 ^ k := by
  induction k generalizing v with
  | zero => simp [leBytes, leNat, Nat.mod_one]
  | succ k ih =>
    have hp : 256 ^ (k + 1) = 256 * 256 ^ k := by rw [Nat.pow_succ, Nat.mul_comm]
    rw [leBytes, leNat, ih, BitVec.toNat_ofNat, hp, Nat.mod_mul]

theorem leNat_lt (bs : List Byte) : leNat bs < 256 ^ bs.length := by
  induction bs with
  | nil => simp [leNat]
  | cons b bs ih =>
    have h := b.isLt
    simp only [leNat, List.length_cons, Nat.pow_succ]
    omega

theorem leBytes_leNat (bs : List Byte) : leBytes bs.length (leNat bs) = bs := by
  induction bs with
  | nil => rfl
  | cons b bs ih =>
    have h := b.isLt
    have hd : (b.toNat + 256 * leNat bs) / 256 = leNat bs := by omega
    have hm : BitVec.ofNat 8 (b.toNat + 256 * leNat bs) = b := by
      apply BitVec.eq_of_toNat_eq
      simp only [BitVec.toNat_ofNat]
      omega
    simp [leBytes, leNat, hd, hm, ih]

theorem leBytes_leNat_of_length {bs : List Byte} {k : Nat} (h : bs.length = k) : leBytes k (leNat bs) = bs := by
  subst h; exact leBytes_leNat bs

@[simp] theorem le16_length (v : Nat) : (le16 v).length = 2 := rfl

/-- `rd_le16` reads back what `le16` wrote, for a value that fits (00_scope.md R12). -/
theorem rdLe16_le16 (x : Byte) (v : Nat) (rest : List Byte) (h : v < 65536) :
    rdLe16 (x :: (le16 v ++ rest)) 1 = v := by
  simp only [rdLe16, byteAt, le16, List.cons_append, List.nil_append, List.getD_cons_succ, List.getD_cons_zero,
    BitVec.toNat_ofNat]
  omega

@[simp] theorem frameTypeOf_code (T : FrameType) : frameTypeOf (frameTypeCode T) = some T := by
  cases T <;> rfl

theorem frameTypeOf_eq_some {b : Byte} {T : FrameType} (h : frameTypeOf b = some T) : b = frameTypeCode T := by
  apply BitVec.eq_of_toNat_eq
  unfold frameTypeOf at h
  split at h <;> simp_all <;> subst h <;> rfl

theorem frameTypeOf_eq_none {b : Byte} : frameTypeOf b = none ↔ b.toNat = 0 ∨ 8 ≤ b.toNat := by
  unfold frameTypeOf
  split <;> simp_all
  omega

end Sys2Proof
end

