-- ==== Sys2Proof/Laws/State.lean ====
section
/-! SUPPORT. One lemma for each field under each update of the state and of the Session. -/

namespace Sys2Proof.Machine

/-! ### emit -/

@[simp] theorem emit_S (o : Output) (s : State) : (emit o s).S = s.S := rfl
@[simp] theorem emit_buf (o : Output) (s : State) : (emit o s).buf = s.buf := rfl
@[simp] theorem emit_txBuf (o : Output) (s : State) : (emit o s).txBuf = s.txBuf := rfl
@[simp] theorem emit_input (o : Output) (s : State) : (emit o s).input = s.input := rfl
@[simp] theorem emit_trace (o : Output) (s : State) : (emit o s).trace = s.trace ++ [o] := rfl
@[simp] theorem emit_cfg (o : Output) (s : State) : (emit o s).cfg = s.cfg := rfl

/-! ### setSession -/

@[simp] theorem setSession_S (S : Session) (s : State) : (setSession S s).S = S := rfl
@[simp] theorem setSession_buf (S : Session) (s : State) : (setSession S s).buf = s.buf := rfl
@[simp] theorem setSession_txBuf (S : Session) (s : State) : (setSession S s).txBuf = s.txBuf := rfl
@[simp] theorem setSession_input (S : Session) (s : State) : (setSession S s).input = s.input := rfl
@[simp] theorem setSession_trace (S : Session) (s : State) : (setSession S s).trace = s.trace := rfl
@[simp] theorem setSession_cfg (S : Session) (s : State) : (setSession S s).cfg = s.cfg := rfl

/-! ### setConn -/

@[simp] theorem setConn_S (c : ConnState) (s : State) : (setConn c s).S = { s.S with conn := c } := rfl
@[simp] theorem setConn_buf (c : ConnState) (s : State) : (setConn c s).buf = s.buf := rfl
@[simp] theorem setConn_txBuf (c : ConnState) (s : State) : (setConn c s).txBuf = s.txBuf := rfl
@[simp] theorem setConn_input (c : ConnState) (s : State) : (setConn c s).input = s.input := rfl
@[simp] theorem setConn_trace (c : ConnState) (s : State) : (setConn c s).trace = s.trace := rfl
@[simp] theorem setConn_cfg (c : ConnState) (s : State) : (setConn c s).cfg = s.cfg := rfl

/-! ### setTxBuf -/

@[simp] theorem setTxBuf_S (r : Option CodecResult) (s : State) : (setTxBuf r s).S = s.S := rfl
@[simp] theorem setTxBuf_buf (r : Option CodecResult) (s : State) : (setTxBuf r s).buf = s.buf := rfl
@[simp] theorem setTxBuf_txBuf (r : Option CodecResult) (s : State) : (setTxBuf r s).txBuf = r := rfl
@[simp] theorem setTxBuf_input (r : Option CodecResult) (s : State) : (setTxBuf r s).input = s.input := rfl
@[simp] theorem setTxBuf_trace (r : Option CodecResult) (s : State) : (setTxBuf r s).trace = s.trace := rfl
@[simp] theorem setTxBuf_cfg (r : Option CodecResult) (s : State) : (setTxBuf r s).cfg = s.cfg := rfl

/-! ### setUserHalt -/

@[simp] theorem setUserHalt_S (v : Bool) (s : State) : (setUserHalt v s).S = { s.S with userHalt := v } := rfl
@[simp] theorem setUserHalt_buf (v : Bool) (s : State) : (setUserHalt v s).buf = s.buf := rfl
@[simp] theorem setUserHalt_txBuf (v : Bool) (s : State) : (setUserHalt v s).txBuf = s.txBuf := rfl
@[simp] theorem setUserHalt_input (v : Bool) (s : State) : (setUserHalt v s).input = s.input := rfl
@[simp] theorem setUserHalt_trace (v : Bool) (s : State) : (setUserHalt v s).trace = s.trace := rfl
@[simp] theorem setUserHalt_cfg (v : Bool) (s : State) : (setUserHalt v s).cfg = s.cfg := rfl

/-! ### setUserReady -/

@[simp] theorem setUserReady_S (v : Bool) (s : State) : (setUserReady v s).S = { s.S with userReady := v } := rfl
@[simp] theorem setUserReady_buf (v : Bool) (s : State) : (setUserReady v s).buf = s.buf := rfl
@[simp] theorem setUserReady_txBuf (v : Bool) (s : State) : (setUserReady v s).txBuf = s.txBuf := rfl
@[simp] theorem setUserReady_input (v : Bool) (s : State) : (setUserReady v s).input = s.input := rfl
@[simp] theorem setUserReady_trace (v : Bool) (s : State) : (setUserReady v s).trace = s.trace := rfl
@[simp] theorem setUserReady_cfg (v : Bool) (s : State) : (setUserReady v s).cfg = s.cfg := rfl

/-! ### enterReceive -/

@[simp] theorem enterReceive_S (s : State) : (enterReceive s).S = { s.S with rxArmed := false } := rfl
@[simp] theorem enterReceive_buf (s : State) : (enterReceive s).buf = s.buf := rfl
@[simp] theorem enterReceive_txBuf (s : State) : (enterReceive s).txBuf = s.txBuf := rfl
@[simp] theorem enterReceive_input (s : State) : (enterReceive s).input = s.input := rfl
@[simp] theorem enterReceive_trace (s : State) : (enterReceive s).trace = s.trace := rfl
@[simp] theorem enterReceive_cfg (s : State) : (enterReceive s).cfg = s.cfg := rfl

/-! ### leaveReceive -/

@[simp] theorem leaveReceive_S (s : State) : (leaveReceive s).S = { s.S with rxArmed := true } := rfl
@[simp] theorem leaveReceive_buf (s : State) : (leaveReceive s).buf = s.buf := rfl
@[simp] theorem leaveReceive_txBuf (s : State) : (leaveReceive s).txBuf = s.txBuf := rfl
@[simp] theorem leaveReceive_input (s : State) : (leaveReceive s).input = s.input := rfl
@[simp] theorem leaveReceive_trace (s : State) : (leaveReceive s).trace = s.trace := rfl
@[simp] theorem leaveReceive_cfg (s : State) : (leaveReceive s).cfg = s.cfg := rfl

/-! ### setSlot -/

@[simp] theorem setSlot_conn (S : Session) (i : Nat) (x : Slot) : (setSlot S i x).conn = S.conn := rfl
@[simp] theorem setSlot_userHalt (S : Session) (i : Nat) (x : Slot) : (setSlot S i x).userHalt = S.userHalt := rfl
@[simp] theorem setSlot_userReady (S : Session) (i : Nat) (x : Slot) : (setSlot S i x).userReady = S.userReady := rfl
@[simp] theorem setSlot_running (S : Session) (i : Nat) (x : Slot) : (setSlot S i x).running = S.running := rfl
@[simp] theorem setSlot_totalChannels (S : Session) (i : Nat) (x : Slot) :
  (setSlot S i x).totalChannels = S.totalChannels := rfl
@[simp] theorem setSlot_slots (S : Session) (i : Nat) (x : Slot) :
  (setSlot S i x).slots = S.slots.setIfInBounds i x := rfl
@[simp] theorem setSlot_enabledCount (S : Session) (i : Nat) (x : Slot) :
  (setSlot S i x).enabledCount = S.enabledCount := rfl
@[simp] theorem setSlot_reservedSize (S : Session) (i : Nat) (x : Slot) :
  (setSlot S i x).reservedSize = S.reservedSize := rfl
@[simp] theorem setSlot_rxBuf (S : Session) (i : Nat) (x : Slot) : (setSlot S i x).rxBuf = S.rxBuf := rfl
@[simp] theorem setSlot_rxIdx (S : Session) (i : Nat) (x : Slot) : (setSlot S i x).rxIdx = S.rxIdx := rfl
@[simp] theorem setSlot_rxArmed (S : Session) (i : Nat) (x : Slot) : (setSlot S i x).rxArmed = S.rxArmed := rfl
@[simp] theorem setSlot_initialized (S : Session) (i : Nat) (x : Slot) :
  (setSlot S i x).initialized = S.initialized := rfl

/-! ### clearRx -/

@[simp] theorem clearRx_conn (S : Session) : (clearRx S).conn = S.conn := rfl
@[simp] theorem clearRx_userHalt (S : Session) : (clearRx S).userHalt = S.userHalt := rfl
@[simp] theorem clearRx_userReady (S : Session) : (clearRx S).userReady = S.userReady := rfl
@[simp] theorem clearRx_running (S : Session) : (clearRx S).running = S.running := rfl
@[simp] theorem clearRx_totalChannels (S : Session) : (clearRx S).totalChannels = S.totalChannels := rfl
@[simp] theorem clearRx_slots (S : Session) : (clearRx S).slots = S.slots := rfl
@[simp] theorem clearRx_enabledCount (S : Session) : (clearRx S).enabledCount = S.enabledCount := rfl
@[simp] theorem clearRx_reservedSize (S : Session) : (clearRx S).reservedSize = S.reservedSize := rfl
@[simp] theorem clearRx_rxBuf (S : Session) : (clearRx S).rxBuf = Vector.replicate 1024 0 := rfl
@[simp] theorem clearRx_rxIdx (S : Session) : (clearRx S).rxIdx = 0 := rfl
@[simp] theorem clearRx_rxArmed (S : Session) : (clearRx S).rxArmed = S.rxArmed := rfl
@[simp] theorem clearRx_initialized (S : Session) : (clearRx S).initialized = S.initialized := rfl

/-! ### appendRx -/

@[simp] theorem appendRx_conn (b : Byte) (S : Session) : (appendRx b S).conn = S.conn := rfl
@[simp] theorem appendRx_userHalt (b : Byte) (S : Session) : (appendRx b S).userHalt = S.userHalt := rfl
@[simp] theorem appendRx_userReady (b : Byte) (S : Session) : (appendRx b S).userReady = S.userReady := rfl
@[simp] theorem appendRx_running (b : Byte) (S : Session) : (appendRx b S).running = S.running := rfl
@[simp] theorem appendRx_totalChannels (b : Byte) (S : Session) :
  (appendRx b S).totalChannels = S.totalChannels := rfl
@[simp] theorem appendRx_slots (b : Byte) (S : Session) : (appendRx b S).slots = S.slots := rfl
@[simp] theorem appendRx_enabledCount (b : Byte) (S : Session) : (appendRx b S).enabledCount = S.enabledCount := rfl
@[simp] theorem appendRx_reservedSize (b : Byte) (S : Session) : (appendRx b S).reservedSize = S.reservedSize := rfl
@[simp] theorem appendRx_rxBuf (b : Byte)
  (S : Session) : (appendRx b S).rxBuf = S.rxBuf.set S.rxIdx.val b S.rxIdx.isLt := rfl
@[simp] theorem appendRx_rxIdx (b : Byte) (S : Session) : (appendRx b S).rxIdx = S.rxIdx + 1 := rfl
@[simp] theorem appendRx_rxArmed (b : Byte) (S : Session) : (appendRx b S).rxArmed = S.rxArmed := rfl
@[simp] theorem appendRx_initialized (b : Byte) (S : Session) : (appendRx b S).initialized = S.initialized := rfl

end Sys2Proof.Machine
end

