-- ==== Sys2Proof/Laws/Memory.lean ====
section
/-! SUPPORT. `BUF`: reads after writes, and every memory operation keeps the canonical form. -/

namespace Sys2Proof.Machine

/-! ### One byte -/

@[simp] theorem read_nil (a : Nat) : Memory.read [] a = unlistedByte := rfl
@[simp] theorem read_cons (d : Host.Cell) (m : Memory) (a : Nat) :
    Memory.read (d :: m) a = if a = d.1 then d.2 else Memory.read m a := rfl

/-- An address that is not listed holds the default byte. -/
theorem read_unlisted {m : Memory} {a : Nat} (h : ∀ c ∈ m, c.1 ≠ a) : Memory.read m a = unlistedByte := by
  induction m with
  | nil => rfl
  | cons d m ih =>
    have hd := h d List.mem_cons_self
    rw [read_cons, if_neg fun e => hd e.symm]
    exact ih fun c hc => h c (List.mem_cons_of_mem _ hc)

theorem read_others_self (m : Memory) (a : Nat) :
    Memory.read (m.filter fun c => decide (c.1 ≠ a)) a = unlistedByte :=
  read_unlisted fun c hc => by simpa using (List.mem_filter.1 hc).2

theorem read_others_ne (m : Memory) {a c : Nat} (h : c ≠ a) :
    Memory.read (m.filter fun d => decide (d.1 ≠ a)) c = Memory.read m c := by
  induction m with
  | nil => rfl
  | cons d m ih =>
    by_cases hb : d.1 = a
    · subst hb; simpa [h] using ih
    · simp only [List.filter_cons, decide_eq_true hb, if_true, read_cons, ih, ne_eq]

theorem read_insert_ne (m : Memory) {a c : Nat} (v : Byte) (h : c ≠ a) :
    Memory.read (Memory.insert m a v) c = Memory.read m c := by
  induction m with
  | nil => simp [Memory.insert, h]
  | cons d m ih =>
    simp only [Memory.insert]
    split <;> simp [h, ih]

theorem read_insert_self {m : Memory} {a : Nat} (v : Byte) (h : ∀ c ∈ m, c.1 ≠ a) :
    Memory.read (Memory.insert m a v) a = v := by
  induction m with
  | nil => simp [Memory.insert]
  | cons d m ih =>
    have hd := h d List.mem_cons_self
    simp only [Memory.insert]
    split
    · simp
    · rw [read_cons, if_neg fun e => hd e.symm]
      exact ih fun c hc => h c (List.mem_cons_of_mem _ hc)

theorem mem_insert {m : Memory} {a : Nat} {v : Byte} {c : Host.Cell} (h : c ∈ Memory.insert m a v) :
    c = (a, v) ∨ c ∈ m := by
  induction m with
  | nil => simpa [Memory.insert] using h
  | cons d m ih =>
    simp only [Memory.insert] at h
    split at h
    · exact List.mem_cons.1 h
    · rcases List.mem_cons.1 h with rfl | h
      · exact .inr List.mem_cons_self
      · exact (ih h).imp id (List.mem_cons_of_mem _)

theorem insert_rising {m : Memory} {a : Nat} (v : Byte) (hn : ∀ c ∈ m, c.1 ≠ a)
    (h : m.Pairwise fun x y => x.1 < y.1) : (Memory.insert m a v).Pairwise fun x y => x.1 < y.1 := by
  induction m with
  | nil => simp [Memory.insert]
  | cons d m ih =>
    obtain ⟨hd, hm⟩ := List.pairwise_cons.1 h
    have hda := hn d List.mem_cons_self
    simp only [Memory.insert]
    split
    · rename_i hlt
      refine List.pairwise_cons.2 ⟨fun c hc => ?_, h⟩
      rcases List.mem_cons.1 hc with rfl | hc
      · exact hlt
      · exact Nat.lt_trans hlt (hd c hc)
    · refine List.pairwise_cons.2 ⟨fun c hc => ?_, ih (fun c hc => hn c (List.mem_cons_of_mem _ hc)) hm⟩
      rcases mem_insert hc with rfl | hc
      · simp only; omega
      · exact hd c hc

theorem mem_write {m : Memory} {a : Nat} {v : Byte} {c : Host.Cell} (h : c ∈ Memory.write m a v) :
    (c = (a, v) ∧ v ≠ unlistedByte) ∨ (c ∈ m ∧ c.1 ≠ a) := by
  unfold Memory.write at h
  split at h
  · exact .inr (by simpa using h)
  · rename_i hv
    rcases mem_insert h with h | h
    · exact .inl ⟨h, hv⟩
    · exact .inr (by simpa using h)

/-- Read after write, at the address. -/
@[simp] theorem read_write_self (m : Memory) (a : Nat) (v : Byte) : Memory.read (Memory.write m a v) a = v := by
  unfold Memory.write
  split
  · rename_i hv; rw [read_others_self, hv]
  · exact read_insert_self v fun c hc => by simpa using (List.mem_filter.1 hc).2

/-- Read after write, elsewhere. -/
theorem read_write_ne (m : Memory) {a c : Nat} (v : Byte) (h : c ≠ a) :
    Memory.read (Memory.write m a v) c = Memory.read m c := by
  unfold Memory.write
  split
  · exact read_others_ne m h
  · rw [read_insert_ne _ v h, read_others_ne m h]

/-- A write keeps the canonical form. -/
theorem write_wf {m : Memory} (a : Nat) (v : Byte) (h : Memory.wf m) : Memory.wf (Memory.write m a v) := by
  refine ⟨?_, fun c hc => ?_⟩
  · have hf := h.1.filter fun c => decide (c.1 ≠ a)
    unfold Memory.write
    split
    · exact hf
    · exact insert_rising v (fun c hc => by simpa using (List.mem_filter.1 hc).2) hf
  · rcases mem_write hc with ⟨rfl, hv⟩ | ⟨hc, -⟩
    · exact hv
    · exact h.2 c hc

theorem write_within {m : Memory} {w a : Nat} (v : Byte) (h : Memory.within w m) (ha : a < 2 ^ w) :
    Memory.within w (Memory.write m a v) := fun c hc => by
  rcases mem_write hc with ⟨rfl, -⟩ | ⟨hc, -⟩
  · exact ha
  · exact h c hc

/-- Two canonical memories that read alike are equal data. -/
theorem read_ext {m n : Memory} (hm : Memory.wf m) (hn : Memory.wf n)
    (h : ∀ a, Memory.read m a = Memory.read n a) : m = n := by
  have unlisted_of_lt : ∀ {l : Memory} {a : Nat}, (∀ c ∈ l, a < c.1) → Memory.read l a = unlistedByte :=
    fun hl => read_unlisted fun c hc => by have := hl c hc; omega
  induction m generalizing n with
  | nil =>
    cases n with
    | nil => rfl
    | cons d n =>
      have := h d.1
      exact absurd (by simpa using this.symm) (hn.2 d List.mem_cons_self)
  | cons c m ih =>
    cases n with
    | nil =>
      have := h c.1
      exact absurd (by simpa using this) (hm.2 c List.mem_cons_self)
    | cons d n =>
      obtain ⟨hc, hm'⟩ := List.pairwise_cons.1 hm.1
      obtain ⟨hd, hn'⟩ := List.pairwise_cons.1 hn.1
      have key : c.1 = d.1 := by
        by_contra hne
        rcases Nat.lt_or_gt_of_ne hne with hlt | hlt
        · have h1 := h c.1
          rw [unlisted_of_lt (l := d :: n) fun e he => by
            rcases List.mem_cons.1 he with rfl | he
            · exact hlt
            · exact Nat.lt_trans hlt (hd e he)] at h1
          exact hm.2 c List.mem_cons_self (by simpa using h1)
        · have h1 := h d.1
          rw [unlisted_of_lt (l := c :: m) fun e he => by
            rcases List.mem_cons.1 he with rfl | he
            · exact hlt
            · exact Nat.lt_trans hlt (hc e he)] at h1
          exact hn.2 d List.mem_cons_self (by simpa using h1.symm)
      have hv : c.2 = d.2 := by
        have := h c.1
        simpa [Memory.read, key] using this
      have hcd : c = d := Prod.ext key hv
      subst hcd
      have hmn : m = n := ih ⟨hm', fun e he => hm.2 e (List.mem_cons_of_mem _ he)⟩
        ⟨hn', fun e he => hn.2 e (List.mem_cons_of_mem _ he)⟩ fun a => by
          by_cases ha : a = c.1
          · subst ha; exact (unlisted_of_lt hc).trans (unlisted_of_lt hd).symm
          · have := h a; simpa [Memory.read, ha] using this
      rw [hmn]

/-! ### MemRead and MemWrite -/

theorem memRead_eq_next {s : State} {a : Nat} {v : Byte} :
    memRead s a = .next v ↔ a < 2 ^ s.cfg.addrW ∧ Memory.read s.buf a = v := by
  unfold memRead
  split <;> simp_all

theorem memWrite_eq_next {s t : State} {a : Nat} {v : Byte} :
    memWrite a v s = .next t ↔ a < 2 ^ s.cfg.addrW ∧ t = { s with buf := Memory.write s.buf a v } := by
  unfold memWrite
  split <;> simp_all [eq_comm]

/-! ### Sequencing -/

@[simp] theorem andThen_next {α β : Type} (a : α) (k : α → Result β) : andThen (.next a) k = k a := rfl
@[simp] theorem andThen_fault {α β : Type} (f : Fault) (k : α → Result β) : andThen (.fault f) k = .fault f := rfl
@[simp] theorem andThen_refused {α β : Type} (r : Refusal) (k : α → Result β) :
    andThen (.refused r) k = .refused r := rfl

theorem andThen_eq_next {α β : Type} {x : Result α} {k : α → Result β} {b : β} :
    andThen x k = .next b ↔ ∃ a, x = .next a ∧ k a = .next b := by
  cases x <;> simp [andThen]

theorem andThen_eq_fault {α β : Type} {x : Result α} {k : α → Result β} {f : Fault} :
    andThen x k = .fault f ↔ x = .fault f ∨ ∃ a, x = .next a ∧ k a = .fault f := by
  cases x <;> simp [andThen]

theorem andThen_eq_refused {α β : Type} {x : Result α} {k : α → Result β} {r : Refusal} :
    andThen x k = .refused r ↔ x = .refused r ∨ ∃ a, x = .next a ∧ k a = .refused r := by
  cases x <;> simp [andThen]

theorem andThen_assoc {α β γ : Type} (x : Result α) (k : α → Result β) (l : β → Result γ) :
    andThen (andThen x k) l = andThen x fun a => andThen (k a) l := by
  cases x <;> rfl

/-! ### Strings of bytes -/

/-- Everything a successful string write does: only `BUF` changes, each byte is at its address, every other address
reads as before, every address was inside `BUF`, and the canonical form is kept. -/
theorem writeBytes_spec {bs : List Byte} {a : Nat} {s t : State} (h : writeBytes a bs s = .next t) :
    t = { s with buf := t.buf } ∧
    (∀ k < bs.length, bs[k]? = some (Memory.read t.buf (a + k))) ∧
    (∀ c, c < a ∨ a + bs.length ≤ c → Memory.read t.buf c = Memory.read s.buf c) ∧
    (∀ k < bs.length, a + k < 2 ^ s.cfg.addrW) ∧
    (Memory.wf s.buf → Memory.wf t.buf) ∧
    (Memory.within s.cfg.addrW s.buf → Memory.within s.cfg.addrW t.buf) := by
  induction bs generalizing a s with
  | nil =>
    simp only [writeBytes, Host.Outcome.next.injEq] at h
    subst h
    simp
  | cons v vs ih =>
    simp only [writeBytes, andThen_eq_next] at h
    obtain ⟨u, hu, ht⟩ := h
    obtain ⟨ha, rfl⟩ := memWrite_eq_next.1 hu
    obtain ⟨h1, h2, h3, h4, h5, h6⟩ := ih ht
    simp only [List.length_cons] at *
    refine ⟨h1, fun k hk => ?_, fun c hc => ?_, fun k hk => ?_, fun hw => h5 (write_wf _ _ hw),
      fun hw => h6 (write_within _ hw ha)⟩
    · cases k with
      | zero =>
        rw [Nat.add_zero, h3 a (by omega), read_write_self]
        rfl
      | succ k =>
        have := h2 k (by omega)
        rw [show a + (k + 1) = a + 1 + k by omega, ← this]
        rfl
    · rw [h3 c (by omega), read_write_ne _ _ (by omega)]
    · cases k with
      | zero => exact ha
      | succ k =>
        have := h4 k (by omega)
        rwa [show a + (k + 1) = a + 1 + k by omega]

/-- A string write answers a next state when every address is inside `BUF`. -/
theorem writeBytes_answers {bs : List Byte} {a : Nat} {s : State}
    (h : ∀ k < bs.length, a + k < 2 ^ s.cfg.addrW) : ∃ t, writeBytes a bs s = .next t := by
  induction bs generalizing a s with
  | nil => exact ⟨s, rfl⟩
  | cons v vs ih =>
    have hw : memWrite a v s = .next { s with buf := Memory.write s.buf a v } :=
      memWrite_eq_next.2 ⟨h 0 (by simp), rfl⟩
    rw [writeBytes, hw, andThen_next]
    refine ih fun k hk => ?_
    have := h (k + 1) (by simp only [List.length_cons]; omega)
    simpa [Nat.add_assoc, Nat.add_comm 1 k] using this

/-- A string write outside `BUF` is refused as a whole (40_channel_registry.md R153). -/
theorem writeBytes_refused {bs : List Byte} {a : Nat} {s : State}
    (h : ∃ k < bs.length, 2 ^ s.cfg.addrW ≤ a + k) :
    ∃ c, writeBytes a bs s = .refused (.bufAddressOutOfRange c) := by
  induction bs generalizing a s with
  | nil => obtain ⟨k, hk, -⟩ := h; simp at hk
  | cons v vs ih =>
    simp only [writeBytes, memWrite]
    split
    · rename_i ha
      obtain ⟨k, hk, hle⟩ := h
      cases k with
      | zero => exact absurd ha (by simpa using hle)
      | succ k =>
        refine ih ⟨k, ?_, ?_⟩
        · simp only [List.length_cons] at hk; omega
        · simp only; omega
    · exact ⟨a, rfl⟩

/-- A string write does not look at the connection state. -/
theorem writeBytes_setConn (c : ConnState) (bs : List Byte) (a : Nat) (s : State) :
    writeBytes a bs (setConn c s) = andThen (writeBytes a bs s) fun t => .next (setConn c t) := by
  induction bs generalizing a s with
  | nil => rfl
  | cons v vs ih =>
    have hm : memWrite a v (setConn c s) = andThen (memWrite a v s) fun t => .next (setConn c t) := by
      by_cases h : a < 2 ^ s.cfg.addrW
      · unfold memWrite
        rw [if_pos h, if_pos (show a < 2 ^ (setConn c s).cfg.addrW from h)]
        rfl
      · unfold memWrite
        rw [if_neg h, if_neg (show ¬a < 2 ^ (setConn c s).cfg.addrW from h)]
        rfl
    rw [writeBytes, writeBytes, hm, andThen_assoc, andThen_assoc]
    congr 1
    funext t
    exact ih _ t

/-- A string read answers when every byte is inside `BUF`, with the bytes there. -/
theorem readBytes_answers {s : State} {n a : Nat} (h : ∀ k < n, a + k < 2 ^ s.cfg.addrW) :
    readBytes s a n = .next ((List.range n).map fun k => Memory.read s.buf (a + k)) := by
  induction n generalizing a with
  | zero => rfl
  | succ n ih =>
    rw [readBytes, memRead_eq_next.2 ⟨by simpa using h 0 (by omega), rfl⟩, andThen_next, ih (a := a + 1) fun k hk => by
      have := h (k + 1) (by omega)
      rwa [show a + (k + 1) = a + 1 + k by omega] at this]
    simp [List.range_succ_eq_map, Function.comp_def, Nat.add_assoc, Nat.add_comm 1]

/-- A string read that leaves `BUF` is refused (20_memory.md R84). -/
theorem readBytes_refused {s : State} {n a : Nat} (h : ∃ k < n, 2 ^ s.cfg.addrW ≤ a + k) :
    ∃ c, readBytes s a n = .refused (.bufAddressOutOfRange c) := by
  induction n generalizing a with
  | zero => obtain ⟨k, hk, -⟩ := h; omega
  | succ n ih =>
    simp only [readBytes, memRead]
    split
    · rename_i ha
      obtain ⟨c, hc⟩ := ih (a := a + 1) (by
        obtain ⟨k, hk, hle⟩ := h
        cases k with
        | zero => omega
        | succ k => exact ⟨k, by omega, by omega⟩)
      exact ⟨c, by rw [andThen_next, hc]; rfl⟩
    · exact ⟨a, rfl⟩

/-- A string read answers or leaves `BUF`. -/
theorem readBytes_cases (s : State) (n a : Nat) :
    (∃ c, readBytes s a n = .refused (.bufAddressOutOfRange c)) ∨
    ((∀ k < n, a + k < 2 ^ s.cfg.addrW) ∧
      readBytes s a n = .next ((List.range n).map fun k => Memory.read s.buf (a + k))) := by
  by_cases h : ∃ k < n, 2 ^ s.cfg.addrW ≤ a + k
  · exact .inl (readBytes_refused h)
  · have hin : ∀ k < n, a + k < 2 ^ s.cfg.addrW := fun k hk => by
      by_contra hn; exact h ⟨k, hk, by omega⟩
    exact .inr ⟨hin, readBytes_answers hin⟩

/-- Everything a successful string read says: the bytes stand at their addresses, all inside `BUF`. -/
theorem readBytes_spec {s : State} {n a : Nat} {bs : List Byte} (h : readBytes s a n = .next bs) :
    bs = ((List.range n).map fun k => Memory.read s.buf (a + k)) ∧ ∀ k < n, a + k < 2 ^ s.cfg.addrW := by
  rcases readBytes_cases s n a with ⟨c, hc⟩ | ⟨hin, hr⟩
  · rw [hc] at h; cases h
  · rw [hr] at h; cases h; exact ⟨rfl, hin⟩

end Sys2Proof.Machine
end

