-- ==== Sys2Proof/Laws/Codec.lean ====
section
/-! SUPPORT. SERIALIZE: what it reads, what it answers, and how long the answer is. -/

namespace Sys2Proof.Machine

/-! ### What the codec depends on -/

theorem slotAt_congr {S T : Session} (h : T.slots = S.slots) (i : Nat) : slotAt T i = slotAt S i := by
  simp only [slotAt, h]

theorem stagedIds_congr {S T : Session} (h : T.slots = S.slots) : stagedIds T = stagedIds S := by
  have hp : (fun i => decide (0 < (slotAt T i).stagedSize)) = fun i => decide (0 < (slotAt S i).stagedSize) := by
    funext i; rw [slotAt_congr h]
  simp only [stagedIds, hp]

theorem readBytes_congr {s t : State} (hb : t.buf = s.buf) (hc : t.cfg = s.cfg) (a n : Nat) :
    readBytes t a n = readBytes s a n := by
  induction n generalizing a with
  | zero => rfl
  | succ n ih => simp only [readBytes, memRead, hb, hc, ih]

theorem dataRecords_congr {s t : State} (hs : t.S.slots = s.S.slots) (hb : t.buf = s.buf) (hc : t.cfg = s.cfg)
    (l : List Nat) : dataRecords t l = dataRecords s l := by
  induction l with
  | nil => rfl
  | cons i l ih => simp only [dataRecords, dataRecord, slotAt_congr hs, readBytes_congr hb hc, ih]

/-- SERIALIZE reads the slots, `totalChannels`, `BUF` and the parameters, nothing else (41_frame_codec.md R180, R194). -/
theorem serialize_congr {s t : State} (hs : t.S.slots = s.S.slots) (hn : t.S.totalChannels = s.S.totalChannels)
    (hb : t.buf = s.buf) (hc : t.cfg = s.cfg) (type : Byte) : serialize t type = serialize s type := by
  have hl : ∀ T, dataLen t.S T = dataLen s.S T := by
    intro T; cases T <;> simp only [dataLen, stagedIds_congr hs, slotAt_congr hs]
  have hd : ∀ T, dataBytes t T = dataBytes s T := by
    intro T; cases T <;> simp only [dataBytes, stagedIds_congr hs, dataRecords_congr hs hb hc, hn]
  unfold serialize
  split
  · rfl
  · simp only [serializeType, hl, hd, hc]

/-! ### Lengths -/

theorem mem_stagedIds {S : Session} {i : Nat} : i ∈ stagedIds S ↔ i < 32 ∧ 0 < (slotAt S i).stagedSize := by
  simp [stagedIds]

theorem stagedIds_length_le (S : Session) : (stagedIds S).length ≤ 32 := by
  have := List.length_filter_le (fun i => decide (0 < (slotAt S i).stagedSize)) (List.range 32)
  simpa [stagedIds] using this

theorem dataRecord_spec {s : State} {i : Nat} {d : List Byte} (h : dataRecord s i = .next d) :
    ∃ sample, readBytes s (slotAt s.S i).base (slotAt s.S i).stagedSize = .next sample ∧
      d = BitVec.ofNat 8 i :: (le16 (slotAt s.S i).stagedSize ++ (slotAt s.S i).dataType :: sample) := by
  simp only [dataRecord, andThen_eq_next] at h
  obtain ⟨sample, hs, h⟩ := h
  cases h
  exact ⟨sample, hs, rfl⟩

theorem dataRecord_length {s : State} {i : Nat} {d : List Byte} (h : dataRecord s i = .next d) :
    d.length = 4 + (slotAt s.S i).stagedSize := by
  obtain ⟨sample, hs, rfl⟩ := dataRecord_spec h
  rw [(readBytes_spec hs).1]
  simp
  omega

theorem dataRecords_length {s : State} {l : List Nat} {d : List Byte} (h : dataRecords s l = .next d) :
    d.length = (l.map fun i => 4 + (slotAt s.S i).stagedSize).sum := by
  induction l generalizing d with
  | nil =>
    simp only [dataRecords, Host.Outcome.next.injEq] at h
    simp [← h]
  | cons i l ih =>
    simp only [dataRecords, andThen_eq_next] at h
    obtain ⟨d1, h1, d2, h2, h⟩ := h
    cases h
    simp [dataRecord_length h1, ih h2]

/-- |DataBytes(T)| = DataLen(T) (41_frame_codec.md R180). -/
theorem dataBytes_length {s : State} {T : FrameType} {d : List Byte} (h : dataBytes s T = .next d) :
    d.length = dataLen s.S T := by
  cases T
  case data =>
    simp only [dataBytes, andThen_eq_next] at h
    obtain ⟨ds, h1, h⟩ := h
    cases h
    simp only [List.length_cons, dataRecords_length h1, dataLen]
    omega
  all_goals
    simp only [dataBytes, Host.Outcome.next.injEq] at h
    subst h
    rfl

@[simp] theorem frameBytes_length (cfg : Config) (T : FrameType) (n : Nat) (d : List Byte) :
    (frameBytes cfg T n d).length = 11 + d.length := by
  simp [frameBytes, eom]
  omega

theorem frameBytes_eq_wireFrame (cfg : Config) (T : FrameType) (d : List Byte) :
    frameBytes cfg T d.length d = wireFrame cfg (frameTypeCode T) d := by
  simp [frameBytes, wireFrame, le16, eom]

/-! ### Answers -/

/-- What a frame from SERIALIZE is (R180, R190 to R193). -/
theorem serialize_eq_frame {s : State} {type : Byte} {f : List Byte} (h : serialize s type = .next (.frame f)) :
    ∃ T d, type = frameTypeCode T ∧ dataBytes s T = .next d ∧ f = wireFrame s.cfg type d ∧
      d.length = dataLen s.S T ∧ d.length ≤ 65535 ∧ 11 + d.length ≤ s.cfg.txBufferSize := by
  unfold serialize at h
  split at h
  · simp at h
  · rename_i T hT
    simp only [serializeType] at h
    split at h
    · simp at h
    · split at h
      · simp at h
      · simp only [andThen_eq_next] at h
        obtain ⟨d, hd, h⟩ := h
        cases h
        have hl := dataBytes_length hd
        refine ⟨T, d, frameTypeOf_eq_some hT, hd, ?_, hl, ?_, ?_⟩
        · rw [← hl, frameBytes_eq_wireFrame, ← frameTypeOf_eq_some hT]
        · simp only [lenMax] at *; omega
        · simp only [minFrame] at *; omega

/-- SERIALIZE of a data section of at most one byte: only the transmit buffer can be too small. -/
theorem serialize_control {s : State} {T : FrameType} (d : List Byte)
    (hd : dataBytes s T = .next d) (hl : d.length ≤ 1) :
    serialize s (frameTypeCode T) = .next
      (if 11 + d.length ≤ s.cfg.txBufferSize then .frame (wireFrame s.cfg (frameTypeCode T) d)
       else .error .bufferTooSmall) := by
  have hn := dataBytes_length hd
  simp only [serialize, frameTypeOf_code, serializeType, lenMax, minFrame, ← hn, hd, andThen_next,
    frameBytes_eq_wireFrame]
  rw [if_neg (by omega)]
  split <;> split <;> first | rfl | omega

theorem serialize_stop (s : State) : serialize s (frameTypeCode .stop) =
    .next (if 11 ≤ s.cfg.txBufferSize then .frame (wireFrame s.cfg 6 []) else .error .bufferTooSmall) :=
  serialize_control (T := .stop) [] rfl (Nat.zero_le 1)

theorem serialize_syncResp (s : State) : serialize s (frameTypeCode .syncResp) =
    .next (if 12 ≤ s.cfg.txBufferSize then .frame (wireFrame s.cfg 2 [BitVec.ofNat 8 s.S.totalChannels.val])
      else .error .bufferTooSmall) :=
  serialize_control (T := .syncResp) [BitVec.ofNat 8 s.S.totalChannels.val] rfl (Nat.le_refl 1)

/-- The records of slots whose staged bytes are all inside `BUF`. -/
theorem dataRecords_answers {s : State} {l : List Nat}
    (h : ∀ i ∈ l, ∀ k < (slotAt s.S i).stagedSize, (slotAt s.S i).base + k < 2 ^ s.cfg.addrW) :
    dataRecords s l = .next (l.flatMap fun i =>
      BitVec.ofNat 8 i :: (le16 (slotAt s.S i).stagedSize ++ (slotAt s.S i).dataType :: stagedBytes s i)) := by
  induction l with
  | nil => rfl
  | cons i l ih =>
    have hr := readBytes_answers (h i List.mem_cons_self)
    simp only [dataRecords, dataRecord, hr, andThen_next, ih fun j hj => h j (List.mem_cons_of_mem _ hj),
      List.flatMap_cons, stagedBytes]

/-- The records stop where a staged byte lies outside `BUF`. -/
theorem dataRecords_refused {s : State} {l : List Nat}
    (h : ∃ i ∈ l, ∃ k < (slotAt s.S i).stagedSize, 2 ^ s.cfg.addrW ≤ (slotAt s.S i).base + k) :
    ∃ c, dataRecords s l = .refused (.bufAddressOutOfRange c) := by
  induction l with
  | nil => obtain ⟨i, hi, -⟩ := h; simp at hi
  | cons j l ih =>
    simp only [dataRecords, dataRecord]
    rcases readBytes_cases s (slotAt s.S j).stagedSize (slotAt s.S j).base with ⟨c, hc⟩ | ⟨hin, hd⟩
    · rw [hc]; exact ⟨c, rfl⟩
    · rw [hd]
      simp only [andThen_next]
      obtain ⟨c, hc⟩ := ih (by
        obtain ⟨i, hi, k, hk, hle⟩ := h
        rcases List.mem_cons.1 hi with rfl | hi
        · have := hin k hk; omega
        · exact ⟨i, hi, k, hk, hle⟩)
      rw [hc]; exact ⟨c, rfl⟩

/-- SERIALIZE stops only at a staged byte that is outside `BUF`. -/
theorem serialize_answers {s : State} (type : Byte) (h : StagedReadable s) : ∃ r, serialize s type = .next r := by
  have hd : ∀ T, ∃ d, dataBytes s T = .next d := by
    intro T
    cases T
    case data =>
      simp only [dataBytes, dataRecords_answers fun i hi => h i (mem_stagedIds.1 hi).1, andThen_next]
      exact ⟨_, rfl⟩
    all_goals exact ⟨_, rfl⟩
  unfold serialize
  split
  · exact ⟨_, rfl⟩
  · rename_i T _
    obtain ⟨d, hd⟩ := hd T
    simp only [serializeType, hd, andThen_next]
    split
    · exact ⟨_, rfl⟩
    · split <;> exact ⟨_, rfl⟩

theorem serializeInto_eq_next {type : Byte} {s t : State} :
    serializeInto type s = .next t ↔ ∃ r, serialize s type = .next r ∧ t = setTxBuf (some r) s := by
  simp only [serializeInto, andThen_eq_next, Host.Outcome.next.injEq]
  exact ⟨fun ⟨r, hr, h⟩ => ⟨r, hr, h.symm⟩, fun ⟨r, hr, h⟩ => ⟨r, hr, h.symm⟩⟩

/-- PARSE of a frame on the wire (R195). -/
theorem parse_wireFrame (cfg : Config) (T : FrameType) (d : List Byte) (h : d.length ≤ 65535) :
    parse (wireFrame cfg (frameTypeCode T) d) = .frame ⟨T, d.length, d⟩ := by
  have hb : byteAt (wireFrame cfg (frameTypeCode T) d) 0 = frameTypeCode T := rfl
  have hl : (wireFrame cfg (frameTypeCode T) d).length = 11 + d.length := by simp [wireFrame]; omega
  rw [parse, if_neg (by simp only [minFrame]; omega), hb, frameTypeOf_code]
  have hz : rdLe16 (wireFrame cfg (frameTypeCode T) d) 1 = d.length := by simp [wireFrame, rdLe16, byteAt]; omega
  simp only [hz]
  congr 2
  · rw [hl]
    have : wireFrame cfg (frameTypeCode T) d =
        ([frameTypeCode T, BitVec.ofNat 8 d.length, BitVec.ofNat 8 (d.length / 256)] ++ cfg.hdrReserved.toList) ++
          (d ++ [0x24, 0x25, 0x26]) := by simp [wireFrame]
    rw [this, List.drop_left' (by simp [headerSize]),
      show 11 + d.length - minFrame = d.length by simp [minFrame], List.take_left']
    rfl

end Sys2Proof.Machine
end

