-- ==== Sys2Proof/Laws/Connection.lean ====
section
/-! SUPPORT. The state machine's shared procedures: everything a next state of each can be. -/

namespace Sys2Proof.Machine

theorem handOver_setTxBuf (r : CodecResult) (s : State) :
    handOver (setTxBuf (some r) s) = emit (sentOutput r) (setTxBuf none s) := by
  cases r <;> rfl

/-- TRANSMIT (43_state_machine.md R232): one output, and an empty transmit buffer. -/
theorem transmit_eq_next {T : FrameType} {s t : State} :
    transmit T s = .next t ↔
      ∃ r, serialize s (frameTypeCode T) = .next r ∧ t = emit (sentOutput r) (setTxBuf none s) := by
  simp only [transmit, andThen_eq_next, serializeInto_eq_next]
  constructor
  · rintro ⟨_, ⟨r, hr, rfl⟩, h⟩
    simp only [handOver_setTxBuf, Host.Outcome.next.injEq] at h
    exact ⟨r, hr, h.symm⟩
  · rintro ⟨r, hr, rfl⟩
    exact ⟨_, ⟨r, hr, rfl⟩, by rw [handOver_setTxBuf]⟩

theorem sentOutput_stop (s : State) : ∃ r, serialize s (frameTypeCode .stop) = .next r ∧
    sentOutput r = stopOutput s.cfg := by
  refine ⟨_, serialize_stop s, ?_⟩
  unfold stopOutput
  split <;> rfl

theorem transmit_stop (s : State) : transmit .stop s = .next (emit (stopOutput s.cfg) (setTxBuf none s)) := by
  obtain ⟨r, hr, ho⟩ := sentOutput_stop s
  rw [transmit_eq_next]
  exact ⟨r, hr, by rw [ho]⟩

/-- The state a due halt service leaves (R233). -/
def serviced (s : State) : State :=
  setUserHalt false (setConn .connected (emit (stopOutput s.cfg) (setTxBuf none s)))

theorem serviceHalt_due {s : State} (hc : s.S.conn = .transmitting) (hh : s.S.userHalt = true) :
    serviceHalt s = .next (serviced s) := by
  simp only [serviceHalt, hc, hh, and_self, if_true, transmit_stop, andThen_next, serviced]

theorem serviceHalt_idle {s : State} (h : ¬(s.S.conn = .transmitting ∧ s.S.userHalt = true)) :
    serviceHalt s = .next s := by
  simp only [serviceHalt, if_neg h]

/-- The halt service always answers, with one of two states. -/
theorem serviceHalt_cases (s : State) :
    (s.S.conn = .transmitting ∧ s.S.userHalt = true ∧ serviceHalt s = .next (serviced s)) ∨
    (¬(s.S.conn = .transmitting ∧ s.S.userHalt = true) ∧ serviceHalt s = .next s) := by
  by_cases h : s.S.conn = .transmitting ∧ s.S.userHalt = true
  · exact .inl ⟨h.1, h.2, serviceHalt_due h.1 h.2⟩
  · exact .inr ⟨h, serviceHalt_idle h⟩

/-- RxSync (R234). -/
theorem onSync_eq_next {s t : State} (h : onSync s = .next t) :
    (s.S.conn = .idle ∧ ∃ r, serialize s (frameTypeCode .syncResp) = .next r ∧
      t = emit (sentOutput r) (setTxBuf none (setConn .sync s))) ∨ (s.S.conn ≠ .idle ∧ t = s) := by
  unfold onSync at h
  split at h
  · rename_i hc
    obtain ⟨r, hr, rfl⟩ := transmit_eq_next.1 h
    exact .inl ⟨hc, r, (serialize_congr (t := setConn .sync s) rfl rfl rfl rfl _).symm.trans hr, rfl⟩
  all_goals
    rename_i hc
    cases h
    exact .inr ⟨by simp [hc], rfl⟩

/-- RxDrop (R240). -/
theorem onDrop_eq_next {s t : State} :
    onDrop s = .next t ↔ ∃ r, serialize s (frameTypeCode s.cfg.dropAckType) = .next r ∧
      t = emit (sentOutput r) (setTxBuf none (setConn .idle
        (if s.S.conn = .transmitting then emit (.sig .stop) s else s))) := by
  have key : ∀ u : State, u.S = s.S → u.buf = s.buf → u.cfg = s.cfg →
      ∀ type, serialize (setConn .idle u) type = serialize s type := fun u h1 h2 h3 type =>
    serialize_congr (by simp [h1]) (by simp [h1]) (by simp [h2]) (by simp [h3]) type
  unfold onDrop
  cases hc : s.S.conn <;>
    simp only [transmit_eq_next, reduceCtorEq, if_true, if_false, emit_cfg, key _ rfl rfl rfl,
      key (emit (.sig .stop) s) rfl rfl rfl]

end Sys2Proof.Machine
end

