-- ==== Sys2Proof/Laws/Decode.lean ====
section
/-! SUPPORT. The decoder's pieces: what each reads back of the bytes the encoder lays out, and the bytes a decoded
instruction came from. -/

namespace Sys2Proof

theorem pow_addrW_le (cfg : Config) : 2 ^ cfg.addrW ≤ 256 ^ addrBytes cfg := by
  rw [show 256 = 2 ^ 8 from rfl, ← Nat.pow_mul]
  exact Nat.pow_le_pow_right (by decide) (by unfold addrBytes; omega)

/-! ### ENABLE -/

theorem decodeEnable_operands (cfg : Config) (id : Byte) (base : Nat) (capacity : BitVec 32) (dataType : Byte)
    (rest : List Byte) (h : base < 2 ^ cfg.addrW) :
    decodeEnable cfg (id :: (leBytes (addrBytes cfg) base ++ leBytes 4 capacity.toNat ++ [dataType]) ++ rest) =
      .ok (.enable id base capacity dataType, rest) := by
  have hp := pow_addrW_le cfg
  unfold decodeEnable
  generalize addrBytes cfg = a at *
  set bs := id :: (leBytes a base ++ leBytes 4 capacity.toNat ++ [dataType]) ++ rest with hbs
  have e1 : leNat ((bs.drop 1).take a) = base := by
    simp only [hbs, List.cons_append, List.drop_succ_cons, List.drop_zero, List.append_assoc]
    rw [List.take_left' (by simp), leNat_leBytes, Nat.mod_eq_of_lt (by omega)]
  have e2 : leNat ((bs.drop (1 + a)).take 4) = capacity.toNat := by
    rw [Nat.add_comm 1 a]
    simp only [hbs, List.cons_append, List.drop_succ_cons, List.append_assoc]
    rw [List.drop_left' (by simp), List.take_left' (by simp), leNat_leBytes,
      Nat.mod_eq_of_lt (by have := capacity.isLt; omega)]
  have e3 : byteAt bs (5 + a) = dataType := by
    rw [show 5 + a = (a + 4) + 1 by omega]
    simp [hbs, byteAt, List.getD_eq_getElem?_getD]
  have e4 : bs.drop (6 + a) = rest := by
    rw [hbs, List.drop_left' (by simp; omega)]
  have e5 : ¬bs.length < 6 + a := by
    simp only [hbs, List.cons_append, List.length_cons, List.length_append, leBytes_length]
    omega
  simp only [if_neg e5, e1, if_pos h, e2, e3, e4, BitVec.ofNat_toNat, BitVec.setWidth_eq]
  rfl

/-- A string of at least `a + 5` bytes, cut as ENABLE's operands after the id. -/
theorem enable_pieces {bs : List Byte} {a : Nat} (h : a + 5 ≤ bs.length) :
    ∃ p q x r, bs = p ++ (q ++ x :: r) ∧ p.length = a ∧ q.length = 4 := by
  have h2 : 5 ≤ (bs.drop a).length := by simp; omega
  obtain ⟨b0, b1, b2, b3, x, r, hr⟩ : ∃ b0 b1 b2 b3 x r, bs.drop a = b0 :: b1 :: b2 :: b3 :: x :: r := by
    match bs.drop a, h2 with
    | b0 :: b1 :: b2 :: b3 :: x :: r, _ => exact ⟨_, _, _, _, _, _, rfl⟩
  refine ⟨bs.take a, [b0, b1, b2, b3], x, r, ?_, by simp; omega, rfl⟩
  conv => lhs; rw [← List.take_append_drop a bs, hr]
  rfl

theorem decodeEnable_ok {cfg : Config} {bs rest : List Byte} {i : Instr} (h : decodeEnable cfg bs = .ok (i, rest)) :
    ∃ id base capacity dataType, i = .enable id base capacity dataType ∧ base < 2 ^ cfg.addrW ∧
      id :: (leBytes (addrBytes cfg) base ++ leBytes 4 capacity.toNat ++ [dataType]) ++ rest = bs := by
  unfold decodeEnable at h
  generalize addrBytes cfg = a at *
  simp only at h
  split at h
  · simp at h
  · rename_i hl
    split at h
    · rename_i hb
      simp only [Except.ok.injEq, Prod.mk.injEq] at h
      obtain ⟨rfl, rfl⟩ := h
      obtain ⟨id, bs, rfl⟩ : ∃ x l, bs = x :: l := by
        cases bs with
        | nil => simp at hl
        | cons x l => exact ⟨x, l, rfl⟩
      obtain ⟨p, q, x, r, rfl, hp, hq⟩ := enable_pieces (bs := bs) (a := a) (by simp at hl; omega)
      have hcap : leNat q < 2 ^ 32 := by
        have := leNat_lt q
        rw [hq] at this
        omega
      have e1 : ((id :: (p ++ (q ++ x :: r))).drop 1).take a = p := by
        rw [List.drop_succ_cons, List.drop_zero, List.take_left' hp]
      have e2 : ((id :: (p ++ (q ++ x :: r))).drop (1 + a)).take 4 = q := by
        rw [Nat.add_comm, List.drop_succ_cons, List.drop_left' hp, List.take_left' hq]
      have e3 : byteAt (id :: (p ++ (q ++ x :: r))) (5 + a) = x := by
        rw [show 5 + a = (p.length + q.length) + 1 by omega]
        simp [byteAt, List.getD_eq_getElem?_getD, ← List.append_assoc]
      have e4 : (id :: (p ++ (q ++ x :: r))).drop (6 + a) = r := by
        rw [show 6 + a = (p ++ q ++ [x]).length + 1 by simp; omega, List.drop_succ_cons,
          show p ++ (q ++ x :: r) = p ++ q ++ [x] ++ r by simp, List.drop_left]
      rw [e1] at hb
      rw [e1, e2, e3, e4]
      refine ⟨_, _, _, _, rfl, hb, ?_⟩
      rw [BitVec.toNat_ofNat, Nat.mod_eq_of_lt hcap, leBytes_leNat_of_length hp, leBytes_leNat_of_length hq]
      simp [byteAt]
    · simp at h

/-! ### WRITE_STAGED -/

theorem decodeWriteStaged_operands (id : Byte) (bytes rest : List Byte) (h : bytes.length < 2 ^ 32) :
    decodeWriteStaged (id :: (leBytes 4 bytes.length ++ bytes) ++ rest) = .ok (.writeStaged id bytes, rest) := by
  unfold decodeWriteStaged
  set bs := id :: (leBytes 4 bytes.length ++ bytes) ++ rest with hbs
  have e1 : leNat ((bs.drop 1).take 4) = bytes.length := by
    simp only [hbs, List.cons_append, List.drop_succ_cons, List.drop_zero, List.append_assoc]
    rw [List.take_left' (by simp), leNat_leBytes, Nat.mod_eq_of_lt (by omega)]
  have e2 : (bs.drop 5).take bytes.length = bytes := by
    simp only [hbs, List.cons_append, List.drop_succ_cons, List.append_assoc]
    rw [List.drop_left' (by simp), List.take_left' rfl]
  have e3 : bs.drop (5 + bytes.length) = rest := by
    rw [hbs, List.drop_left' (by simp; omega)]
  have e4 : bs.length = 5 + bytes.length + rest.length := by
    simp only [hbs, List.cons_append, List.length_cons, List.length_append, leBytes_length]
    omega
  simp only [e1, e2, e3]
  rw [if_neg (by omega), if_neg (by omega)]
  rfl

theorem decodeWriteStaged_ok {bs rest : List Byte} {i : Instr} (h : decodeWriteStaged bs = .ok (i, rest)) :
    ∃ id bytes, i = .writeStaged id bytes ∧ bytes.length < 2 ^ 32 ∧
      id :: (leBytes 4 bytes.length ++ bytes) ++ rest = bs := by
  unfold decodeWriteStaged at h
  simp only at h
  split at h
  · simp at h
  · rename_i hl
    split at h
    · simp at h
    · rename_i hl2
      simp only [Except.ok.injEq, Prod.mk.injEq] at h
      obtain ⟨rfl, rfl⟩ := h
      obtain ⟨id, b0, b1, b2, b3, r, rfl⟩ : ∃ x b0 b1 b2 b3 r, bs = x :: ([b0, b1, b2, b3] ++ r) := by
        match bs, (by omega : 5 ≤ bs.length) with
        | x :: b0 :: b1 :: b2 :: b3 :: r, _ => exact ⟨x, b0, b1, b2, b3, r, rfl⟩
      have e1 : ((id :: ([b0, b1, b2, b3] ++ r)).drop 1).take 4 = [b0, b1, b2, b3] := rfl
      have e2 : (id :: ([b0, b1, b2, b3] ++ r)).drop 5 = r := rfl
      rw [e1] at hl2
      rw [e1, e2]
      have hlen : leNat [b0, b1, b2, b3] ≤ r.length := by
        simp only [List.cons_append, List.nil_append, List.length_cons] at hl2
        omega
      have hlt := leNat_lt [b0, b1, b2, b3]
      have htake : (r.take (leNat [b0, b1, b2, b3])).length = leNat [b0, b1, b2, b3] := by simp [hlen]
      refine ⟨_, _, rfl, by rw [htake]; simpa using hlt, ?_⟩
      rw [htake, leBytes_leNat_of_length (k := 4) (bs := [b0, b1, b2, b3]) rfl, Nat.add_comm 5]
      simp [byteAt]

/-! ### Received frames -/

theorem decodeFrame_encodeFrame (type : Byte) (f : RxFrame) :
    decodeFrame (encodeFrame type f) = .ok (rxInstr type f, []) := by
  obtain ⟨dataSize, ⟨⟨reserved⟩, hr⟩, data⟩ := f
  obtain ⟨r0, r1, r2, r3, r4, rfl⟩ : ∃ r0 r1 r2 r3 r4, reserved = [r0, r1, r2, r3, r4] := by
    match reserved, hr with
    | [r0, r1, r2, r3, r4], _ => exact ⟨_, _, _, _, _, rfl⟩
  have hb : encodeFrame type ⟨dataSize, ⟨⟨[r0, r1, r2, r3, r4]⟩, hr⟩, data⟩ =
      type :: (le16 dataSize.toNat ++ ([r0, r1, r2, r3, r4] ++ (data ++ eom))) := by
    simp [encodeFrame]
  have hd := rdLe16_le16 type dataSize.toNat ([r0, r1, r2, r3, r4] ++ (data ++ eom)) dataSize.isLt
  rw [hb]
  unfold decodeFrame rxFrameOf
  rw [if_neg (by simp [eom]; omega), hd]
  simp [byteAt, le16, eom]

end Sys2Proof
end

