-- ==== Sys2Proof/Laws/Receive.lean ====
section
/-! SUPPORT. The receive buffer: what accumulating one byte does. -/

namespace Sys2Proof.Machine

@[simp] theorem received_length (S : Session) : (received S).length = S.rxIdx.val := by
  simp [received]

/-- The bytes accumulated after one more byte (42_receive_assembler.md R210, R211). -/
def nextReceived (b : Byte) (S : Session) : List Byte :=
  if S.rxIdx.val = 1023 then [b] else received S ++ [b]

theorem appendRx_idx {S : Session} (b : Byte) (h : S.rxIdx.val < 1023) :
    (appendRx b S).rxIdx.val = S.rxIdx.val + 1 := by
  simp only [appendRx_rxIdx, Fin.val_add]
  show (S.rxIdx.val + 1) % 1024 = _
  omega

theorem appendRx_toList (b : Byte)
    (S : Session) : (appendRx b S).rxBuf.toList = S.rxBuf.toList.set S.rxIdx.val b := by
  rw [appendRx_rxBuf, Vector.toList_set]

theorem received_appendRx {S : Session} (b : Byte) (h : S.rxIdx.val < 1023) :
    received (appendRx b S) = received S ++ [b] := by
  have hl : S.rxIdx.val < S.rxBuf.toList.length := by simp
  simp only [received, appendRx_idx b h, appendRx_toList]
  rw [List.take_succ_eq_append_getElem (by simp), List.getElem_set_self, List.take_set_of_le (Nat.le_refl _)]

theorem clearRx_idx (S : Session) : (clearRx S).rxIdx.val = 0 := rfl

@[simp] theorem received_clearRx (S : Session) : received (clearRx S) = [] := rfl

theorem accumulate_eq (b : Byte) (S : Session) :
    ∃ S0 : Session, accumulate b S = appendRx b S0 ∧ S0.rxIdx.val < 1023 ∧ received S0 ++ [b] = nextReceived b S ∧
      (S0 = S ∨ S0 = clearRx S) := by
  by_cases h : S.rxIdx.val = 1023
  · refine ⟨clearRx S, by simp [accumulate, recvBufferSize, h], by simp, by simp [nextReceived, h],
      .inr rfl⟩
  · have := S.rxIdx.isLt
    exact ⟨S, by simp [accumulate, recvBufferSize, h], by omega, by simp [nextReceived, h], .inl rfl⟩

@[simp] theorem received_accumulate (b : Byte) (S : Session) : received (accumulate b S) = nextReceived b S := by
  obtain ⟨S0, h1, h2, h3, -⟩ := accumulate_eq b S
  rw [h1, received_appendRx b h2, h3]

theorem accumulate_idx (b : Byte) (S : Session) : (accumulate b S).rxIdx.val = (nextReceived b S).length := by
  rw [← received_length, received_accumulate]

theorem accumulate_link (b : Byte) (S : Session) :
    SameLink S (accumulate b S) ∧ (accumulate b S).slots = S.slots ∧
    (accumulate b S).enabledCount = S.enabledCount ∧ (accumulate b S).reservedSize = S.reservedSize ∧
    (accumulate b S).rxArmed = S.rxArmed := by
  obtain ⟨S0, h1, -, -, rfl | rfl⟩ := accumulate_eq b S <;> rw [h1] <;> simp [SameLink]

/-- The zeros above the fill index (10_state.md R64). -/
def ZerosAbove (S : Session) : Prop := S.rxBuf.toList.drop S.rxIdx.val = List.replicate (1024 - S.rxIdx.val) 0

theorem zerosAbove_clearRx (S : Session) : ZerosAbove (clearRx S) := by
  rw [ZerosAbove, clearRx_rxBuf, clearRx_idx, Vector.toList_replicate, List.drop_zero, Nat.sub_zero]

theorem zerosAbove_appendRx {S : Session} (b : Byte) (h : S.rxIdx.val < 1023) (hz : ZerosAbove S) :
    ZerosAbove (appendRx b S) := by
  unfold ZerosAbove at *
  rw [appendRx_idx b h, appendRx_toList, List.drop_set_of_lt (by omega), ← List.drop_drop (i := 1), hz,
    List.drop_replicate]
  congr 1

theorem zerosAbove_accumulate (b : Byte) {S : Session} (hz : ZerosAbove S) : ZerosAbove (accumulate b S) := by
  obtain ⟨S0, h1, h2, -, rfl | rfl⟩ := accumulate_eq b S <;> rw [h1]
  · exact zerosAbove_appendRx b h2 hz
  · exact zerosAbove_appendRx b h2 (zerosAbove_clearRx S)

/-- The terminator check, over the accumulated bytes (42_receive_assembler.md R212). -/
theorem terminated_eq (S : Session) : terminated S = true ↔
    11 ≤ (received S).length ∧ (received S).drop ((received S).length - 3) = [0x24, 0x25, 0x26] := by
  simp only [terminated, minFrame, Bool.and_eq_true, decide_eq_true_eq, beq_iff_eq, received_length, eom]

end Sys2Proof.Machine
end

