-- ==== Sys2Proof/Laws/Registry.lean ====
section
/-! SUPPORT. Slot accesses, and the registry sums under the writes of one slot. -/

namespace Sys2Proof.Machine

/-! ### Slots -/

theorem slotAt_of_le {S : Session} {i : Nat} (h : 32 ≤ i) : slotAt S i = Slot.empty := by
  simp only [slotAt, List.getD_eq_getElem?_getD]
  rw [List.getElem?_eq_none (by simpa using h)]
  rfl

theorem slotAt_eq_getElem {S : Session} {i : Nat} (h : i < S.slots.toList.length) :
    slotAt S i = S.slots.toList[i] := by
  simp [slotAt, List.getD_eq_getElem?_getD, List.getElem?_eq_getElem h]

theorem setSlot_toList (S : Session) (i : Nat)
    (x : Slot) : (setSlot S i x).slots.toList = S.slots.toList.set i x := by
  simp only [setSlot_slots]
  rcases S.slots with ⟨⟨l⟩, h⟩
  simp [Vector.setIfInBounds, Vector.toList]

theorem slotAt_setSlot_self {S : Session} {i : Nat} (x : Slot) (h : i < 32) : slotAt (setSlot S i x) i = x := by
  simp only [slotAt, setSlot_toList, List.getD_eq_getElem?_getD]
  rw [List.getElem?_set_self (by simpa using h)]
  rfl

theorem slotAt_setSlot_ne {S : Session} {i j : Nat} (x : Slot) (h : j ≠ i) :
    slotAt (setSlot S i x) j = slotAt S j := by
  simp only [slotAt, setSlot_toList, List.getD_eq_getElem?_getD]
  rw [List.getElem?_set_ne (Ne.symm h)]

theorem stageSlot_spec (S : Session) {i : Nat} (n : Nat) (h : i < 32) :
    slotAt (stageSlot S i n) i = { slotAt S i with stagedSize := n } ∧
    ∀ j, j ≠ i → slotAt (stageSlot S i n) j = slotAt S j :=
  ⟨slotAt_setSlot_self _ h, fun _ hj => slotAt_setSlot_ne _ hj⟩

theorem slotAt_replicate {S : Session} (h : S.slots = Vector.replicate 32 Slot.empty) (i : Nat) :
    slotAt S i = Slot.empty := by
  by_cases hi : i < 32
  · rw [slotAt, h, Vector.toList_replicate, List.getD_eq_getElem?_getD, List.getElem?_replicate, if_pos hi]
    rfl
  · exact slotAt_of_le (by omega)

theorem inRange_lt {S : Session} {id : Byte} (h : inRange S id = true) : id.toNat < 32 := by
  have := S.totalChannels.isLt
  simp only [inRange, decide_eq_true_eq] at h
  omega

/-- The negated id check of 40_channel_registry.md R150, in its own words. -/
theorem usable_eq_false {S : Session} {id : Byte} :
    usable S id = false ↔ S.totalChannels.val ≤ id.toNat ∨ (slotAt S id.toNat).enabled = false := by
  simp only [usable, inRange, Bool.and_eq_false_iff, decide_eq_false_iff_not, Nat.not_lt]

theorem inRange_eq_false {S : Session} {id : Byte} : inRange S id = false ↔ S.totalChannels.val ≤ id.toNat := by
  simp only [inRange, decide_eq_false_iff_not, Nat.not_lt]

theorem usable_spec {S : Session} {id : Byte} (h : ¬usable S id = false) :
    id.toNat < 32 ∧ id.toNat < S.totalChannels.val ∧ (slotAt S id.toNat).enabled = true := by
  simp only [usable, Bool.not_eq_false, Bool.and_eq_true] at h
  exact ⟨inRange_lt h.1, by simpa [inRange] using h.1, h.2⟩

/-! ### Sums -/

/-- What a slot adds to the reserved size. -/
def reservedOf (c : Slot) : Nat := if c.enabled then c.capacity else 0

/-- What a slot adds to the enabled count. -/
def countOf (c : Slot) : Nat := if c.enabled then 1 else 0

theorem sum_filter_enabled (l : List Slot) :
    ((l.filter (·.enabled)).map (·.capacity)).sum = (l.map reservedOf).sum := by
  induction l with
  | nil => rfl
  | cons c l ih => cases hc : c.enabled <;> simp [hc, reservedOf, ih]

theorem countP_enabled (l : List Slot) : l.countP (·.enabled) = (l.map countOf).sum := by
  induction l with
  | nil => rfl
  | cons c l ih => cases hc : c.enabled <;> simp [hc, countOf, ih, Nat.add_comm]

theorem sum_map_set (g : Slot → Nat) (l : List Slot) (i : Nat) (x : Slot) (h : i < l.length) :
    ((l.set i x).map g).sum + g l[i] = (l.map g).sum + g x := by
  induction l generalizing i with
  | nil => simp at h
  | cons c l ih =>
    cases i with
    | zero => simp; omega
    | succ i =>
      have := ih i (by simpa using h)
      simp only [List.set_cons_succ, List.map_cons, List.sum_cons, List.getElem_cons_succ]
      omega

/-- The registry sums after slot `i` becomes `x` (10_state.md R61). -/
theorem sums_setSlot {S : Session} {i : Nat} (x : Slot) (h : i < 32) (g : Slot → Nat) :
    ((setSlot S i x).slots.toList.map g).sum + g (slotAt S i) = (S.slots.toList.map g).sum + g x := by
  have hl : i < S.slots.toList.length := by simpa using h
  rw [setSlot_toList, slotAt_eq_getElem hl]
  exact sum_map_set g _ i x hl

theorem registryOk_iff {S : Session} : RegistryOk S ↔
    S.reservedSize = (S.slots.toList.map reservedOf).sum ∧ S.reservedSize ≤ maxDataSize ∧
    S.enabledCount = (S.slots.toList.map countOf).sum := by
  unfold RegistryOk
  rw [sum_filter_enabled, countP_enabled]

/-- The registry sums depend on the registry only. -/
theorem registryOk_congr {S T : Session} (h1 : T.slots = S.slots) (h2 : T.enabledCount = S.enabledCount)
    (h3 : T.reservedSize = S.reservedSize) (h : RegistryOk S) : RegistryOk T := by
  unfold RegistryOk at *
  rw [h1, h2, h3]
  exact h

end Sys2Proof.Machine
end

