-- ==== Sys2Proof/Laws/Exec.lean ====
section
/-! SUPPORT. Inversion: everything a next state of each meaning can be. -/

namespace Sys2Proof.Machine

@[simp] theorem admitted_of_initialized {s : State} (k : State → Result State) (h : s.S.initialized = true) :
    admitted s k = k s := by simp [admitted, h]

@[simp] theorem admitted_of_not {s : State} (k : State → Result State) (h : s.S.initialized = false) :
    admitted s k = .refused .beforeReset := by simp [admitted, h]

theorem admitted_eq_next {s t : State} {k : State → Result State} :
    admitted s k = .next t ↔ s.S.initialized = true ∧ k s = .next t := by
  unfold admitted; split <;> simp_all

theorem retStatus_eq_next {e : Status} {s t : State} : retStatus e s = .next t ↔ t = emit (.ret e) s := by
  simp only [retStatus, Host.Outcome.next.injEq, eq_comm]

theorem raise_eq_next {e : Status} {s t : State} : raise e s = .next t ↔ t = emit (.ret e) s := retStatus_eq_next

/-! ### Registry (40_channel_registry.md) -/

theorem execEnable_next {id : Byte} {base : Nat} {capacity : BitVec 32} {dataType : Byte} {s t : State}
    (h : execEnable id base capacity dataType s = .next t) :
    s.S.initialized = true ∧
    ((∃ e, e ≠ .ok ∧ t = emit (.ret e) s) ∨
     (inRange s.S id = true ∧ s.S.reservedSize + capacity.toNat ≤ 65536 ∧
      t = emit (.ret .ok) (setSession (installSlot s.S id.toNat base capacity.toNat dataType) s))) := by
  obtain ⟨hi, h⟩ := admitted_eq_next.1 h
  refine ⟨hi, ?_⟩
  split at h
  · exact .inl ⟨_, by decide, raise_eq_next.1 h⟩
  · rename_i hr
    split at h
    · exact .inl ⟨_, by decide, raise_eq_next.1 h⟩
    · rename_i hc
      exact .inr ⟨by simpa using hr, by simpa [maxDataSize] using hc, retStatus_eq_next.1 h⟩

theorem execDisable_next {id : Byte} {s t : State} (h : execDisable id s = .next t) :
    s.S.initialized = true ∧
    ((∃ e, e ≠ .ok ∧ t = emit (.ret e) s) ∨
     (¬usable s.S id = false ∧ t = emit (.ret .ok) (setSession (removeSlot s.S id.toNat) s))) := by
  obtain ⟨hi, h⟩ := admitted_eq_next.1 h
  refine ⟨hi, ?_⟩
  split at h
  · exact .inl ⟨_, by decide, raise_eq_next.1 h⟩
  · rename_i hr
    exact .inr ⟨hr, retStatus_eq_next.1 h⟩

theorem execWriteStaged_next {id : Byte} {bytes : List Byte} {s t : State}
    (h : execWriteStaged id bytes s = .next t) :
    s.S.initialized = true ∧
    ((∃ e, e ≠ .ok ∧ t = emit (.ret e) s) ∨
     (¬usable s.S id = false ∧ bytes.length ≤ (slotAt s.S id.toNat).capacity ∧
      ∃ u, writeBytes (slotAt s.S id.toNat).base bytes s = .next u ∧
        t = emit (.ret .ok) (setSession (stageSlot s.S id.toNat bytes.length) u))) := by
  obtain ⟨hi, h⟩ := admitted_eq_next.1 h
  refine ⟨hi, ?_⟩
  split at h
  · exact .inl ⟨_, by decide, raise_eq_next.1 h⟩
  · rename_i hr
    split at h
    · exact .inl ⟨_, by decide, raise_eq_next.1 h⟩
    · rename_i hc
      obtain ⟨u, hu, h⟩ := andThen_eq_next.1 h
      have hS : u.S = s.S := by rw [(writeBytes_spec hu).1]
      rw [hS] at h
      exact .inr ⟨hr, by omega, u, hu, retStatus_eq_next.1 h⟩

theorem execClearStaged_next {id : Byte} {s t : State} (h : execClearStaged id s = .next t) :
    s.S.initialized = true ∧
    ((∃ e, e ≠ .ok ∧ t = emit (.ret e) s) ∨
     (¬usable s.S id = false ∧
      ∃ u, writeBytes (slotAt s.S id.toNat).base (List.replicate (slotAt s.S id.toNat).capacity 0) s = .next u ∧
        t = emit (.ret .ok) (setSession (stageSlot s.S id.toNat 0) u))) := by
  obtain ⟨hi, h⟩ := admitted_eq_next.1 h
  refine ⟨hi, ?_⟩
  split at h
  · exact .inl ⟨_, by decide, raise_eq_next.1 h⟩
  · rename_i hr
    obtain ⟨u, hu, h⟩ := andThen_eq_next.1 h
    have hS : u.S = s.S := by rw [(writeBytes_spec hu).1]
    rw [hS] at h
    exact .inr ⟨hr, u, hu, retStatus_eq_next.1 h⟩

theorem execClearAll_next {s t : State} (h : execClearAll s = .next t) :
    s.S.initialized = true ∧ t = emit (.ret .ok) (setSession
      { s.S with slots := Vector.replicate 32 Slot.empty, enabledCount := 0, reservedSize := 0 } s) := by
  obtain ⟨hi, h⟩ := admitted_eq_next.1 h
  exact ⟨hi, retStatus_eq_next.1 h⟩

/-! ### Control -/

theorem execReset_next {n : Byte} {s t : State} (h : execReset n s = .next t) :
    ∃ hn : n.toNat < 33, t = setSession (Session.afterReset ⟨n.toNat, hn⟩) s := by
  unfold execReset at h
  split at h
  · rename_i hn
    cases h
    exact ⟨hn, rfl⟩
  · simp at h

/-! ### Connection (43_state_machine.md) -/

theorem execSendAll_next {s t : State} (h : execSendAll s = .next t) :
    s.S.initialized = true ∧ ∃ r, serialize s 5 = .next r ∧
      ((∃ e, r = .error e ∧ t = emit (.ret e) (setTxBuf none s)) ∨
       (∃ f, r = .frame f ∧ t = emit (.ret .ok) (emit (.tx f) (setTxBuf none s)))) := by
  obtain ⟨hi, h⟩ := admitted_eq_next.1 h
  obtain ⟨u, hu, h⟩ := andThen_eq_next.1 h
  obtain ⟨r, hr, rfl⟩ := serializeInto_eq_next.1 hu
  refine ⟨hi, r, hr, ?_⟩
  cases r with
  | error e => exact .inl ⟨e, rfl, raise_eq_next.1 h⟩
  | frame f => exact .inr ⟨f, rfl, retStatus_eq_next.1 h⟩

/-- What SEND_ALL outputs for SERIALIZE's answer (43_state_machine.md R245). -/
def sendAllOutputs : CodecResult → List Output
  | .frame f => [.tx f, .ret .ok]
  | .error e => [.ret e]

/-- SEND_ALL of an engine that is initialized, where SERIALIZE answers. -/
theorem execSendAll_of_serialize {s : State} {r : CodecResult} (hi : s.S.initialized = true)
    (hr : serialize s 5 = .next r) :
    execSendAll s = .next { s with txBuf := none, trace := s.trace ++ sendAllOutputs r } := by
  rw [execSendAll, admitted_of_initialized _ hi,
    show serializeInto (frameTypeCode .data) s = .next (setTxBuf (some r) s) from serializeInto_eq_next.2 ⟨r, hr, rfl⟩]
  cases r <;> simp [handOver, emit, setTxBuf, retStatus, raise, sendAllOutputs]

theorem execNotifyReady_next {s t : State} (h : execNotifyReady s = .next t) :
    s.S.initialized = true ∧ ∃ u, serviceHalt s = .next u ∧ t = emit (.ret .ok) (setUserReady true u) := by
  obtain ⟨hi, h⟩ := admitted_eq_next.1 h
  obtain ⟨u, hu, h⟩ := andThen_eq_next.1 h
  exact ⟨hi, u, hu, retStatus_eq_next.1 h⟩

/-- What the latch of NOTIFY_HALT leaves (R244). -/
theorem latchHalt_cases (s : State) :
    (s.S.conn ≠ .transmitting ∧ latchHalt s = .next s) ∨
    (s.S.conn = .transmitting ∧ s.cfg.haltService = .nextEvent ∧ latchHalt s = .next (setUserHalt true s)) ∨
    (s.S.conn = .transmitting ∧ s.cfg.haltService = .immediate ∧
      latchHalt s = .next (serviced (setUserHalt true s))) := by
  by_cases hc : s.S.conn = .transmitting
  · cases hh : s.cfg.haltService with
    | nextEvent => exact .inr (.inl ⟨hc, rfl, by simp [latchHalt, hc, hh]⟩)
    | immediate =>
      have := serviceHalt_due (s := setUserHalt true s) hc rfl
      exact .inr (.inr ⟨hc, rfl, by simp [latchHalt, hc, hh, this]⟩)
  · exact .inl ⟨hc, by simp [latchHalt, hc]⟩

theorem execNotifyHalt_next {s t : State} (h : execNotifyHalt s = .next t) :
    s.S.initialized = true ∧ ∃ u v, serviceHalt s = .next u ∧ latchHalt u = .next v ∧ t = emit (.ret .ok) v := by
  obtain ⟨hi, h⟩ := admitted_eq_next.1 h
  obtain ⟨u, hu, h⟩ := andThen_eq_next.1 h
  obtain ⟨v, hv, h⟩ := andThen_eq_next.1 h
  exact ⟨hi, u, v, hu, hv, retStatus_eq_next.1 h⟩

theorem onAck_cases (s : State) :
    (s.S.conn = .sync ∧ onAck s = setConn .connected s) ∨ (s.S.conn ≠ .sync ∧ onAck s = s) := by
  unfold onAck; cases h : s.S.conn <;> simp

theorem onRequest_cases (s : State) :
    (s.S.conn = .connected ∧ onRequest s = emit (.sig .start) (setConn .transmitting s)) ∨
    (s.S.conn ≠ .connected ∧ onRequest s = s) := by
  unfold onRequest; cases h : s.S.conn <;> simp

theorem onStop_cases (s : State) :
    (s.S.conn = .transmitting ∧ onStop s = emit (.sig .stop) s) ∨ (s.S.conn ≠ .transmitting ∧ onStop s = s) := by
  unfold onStop; cases h : s.S.conn <;> simp

/-- The handling of a received frame after the halt service, by its type; `none` for a frame PARSE rejects. -/
def handleType (T : Option FrameType) (s : State) : Result State :=
  match T with
  | none => .next s
  | some .sync => onSync s
  | some .syncResp => .next s
  | some .ack => .next (onAck s)
  | some .request => .next (onRequest s)
  | some .data => .next s
  | some .stop => .next (onStop s)
  | some .drop => onDrop s

/-- FRAME_RECEIVED uses the type byte only (43_state_machine.md R231, 30_encoding.md R126). -/
theorem frameReceived_eq {f : List Byte} (h : 11 ≤ f.length) (s : State) :
    frameReceived f s = andThen (serviceHalt s) (handleType (frameTypeOf (byteAt f 0))) := by
  have hl : ¬f.length < minFrame := by simp only [minFrame]; omega
  have hp : ∀ u : State, (match parse f with
      | .error _ => (.next u : Result State)
      | .frame r =>
        match r.type with
        | .sync => onSync u
        | .syncResp => .next u
        | .ack => .next (onAck u)
        | .request => .next (onRequest u)
        | .data => .next u
        | .stop => .next (onStop u)
        | .drop => onDrop u) = handleType (frameTypeOf (byteAt f 0)) u := by
    intro u
    unfold parse handleType
    rw [if_neg hl]
    cases frameTypeOf (byteAt f 0) with
    | none => rfl
    | some T => cases T <;> rfl
  unfold frameReceived
  congr 1
  funext u
  exact hp u

/-- What handling a frame's type changes: the connection state and the trace; the transmit buffer ends empty. -/
theorem handleType_next {T : Option FrameType} {s t : State} (h : handleType T s = .next t) :
    ∃ c os b, t = { s with S := { s.S with conn := c }, trace := s.trace ++ os, txBuf := b } ∧
      (b = s.txBuf ∨ b = none) ∧
      (c = s.S.conn ∨ (T = some .sync ∧ s.S.conn = .idle ∧ c = .sync) ∨
        (T = some .ack ∧ s.S.conn = .sync ∧ c = .connected) ∨
        (T = some .request ∧ s.S.conn = .connected ∧ c = .transmitting) ∨ (T = some .drop ∧ c = .idle)) := by
  have same : ∀ {u : State}, u = s → ∃ c os b,
      u = { s with S := { s.S with conn := c }, trace := s.trace ++ os, txBuf := b } ∧
      (b = s.txBuf ∨ b = none) ∧
      (c = s.S.conn ∨ (T = some .sync ∧ s.S.conn = .idle ∧ c = .sync) ∨
        (T = some .ack ∧ s.S.conn = .sync ∧ c = .connected) ∨
        (T = some .request ∧ s.S.conn = .connected ∧ c = .transmitting) ∨ (T = some .drop ∧ c = .idle)) := by
    rintro u rfl
    exact ⟨u.S.conn, [], u.txBuf, by simp, .inl rfl, .inl rfl⟩
  unfold handleType at h
  split at h
  · exact same (by cases h; rfl)
  · rcases onSync_eq_next h with ⟨hc, r, -, rfl⟩ | ⟨-, h⟩
    · exact ⟨.sync, [sentOutput r], none, rfl, .inr rfl, .inr (.inl ⟨rfl, hc, rfl⟩)⟩
    · exact same h
  · exact same (by cases h; rfl)
  · cases h
    rcases onAck_cases s with ⟨hc, he⟩ | ⟨-, he⟩
    · exact ⟨.connected, [], s.txBuf, by simp [he, setConn], .inl rfl, .inr (.inr (.inl ⟨rfl, hc, rfl⟩))⟩
    · exact same he
  · cases h
    rcases onRequest_cases s with ⟨hc, he⟩ | ⟨-, he⟩
    · exact ⟨.transmitting, [.sig .start], s.txBuf, by simp [he, setConn, emit], .inl rfl,
        .inr (.inr (.inr (.inl ⟨rfl, hc, rfl⟩)))⟩
    · exact same he
  · exact same (by cases h; rfl)
  · cases h
    rcases onStop_cases s with ⟨hc, he⟩ | ⟨-, he⟩
    · exact ⟨s.S.conn, [.sig .stop], s.txBuf, by simp [he, emit], .inl rfl, .inl rfl⟩
    · exact same he
  · obtain ⟨r, -, rfl⟩ := onDrop_eq_next.1 h
    refine ⟨.idle, (if s.S.conn = .transmitting then [.sig .stop] else []) ++ [sentOutput r], none, ?_, .inr rfl,
      .inr (.inr (.inr (.inr ⟨rfl, rfl⟩)))⟩
    split <;> simp [emit, setTxBuf, setConn]

/-! ### Receive Assembler (42_receive_assembler.md) -/

/-- The state in which RX_BYTE delivers or ends: the byte accumulated, reception masked. -/
def accumulated (b : Byte) (s : State) : State := setSession (accumulate b (enterReceive s).S) s

theorem accumulated_spec (b : Byte) (s : State) :
    received (accumulated b s).S = nextReceived b s.S ∧ (accumulated b s).S.rxArmed = false ∧
    SameLink s.S (accumulated b s).S ∧ (accumulated b s).S.slots = s.S.slots ∧
    (accumulated b s).S.enabledCount = s.S.enabledCount ∧ (accumulated b s).S.reservedSize = s.S.reservedSize ∧
    (accumulated b s).buf = s.buf ∧ SameRest s (accumulated b s) ∧ (accumulated b s).trace = s.trace := by
  obtain ⟨h1, h2, h3, h4, h5⟩ := accumulate_link b (enterReceive s).S
  refine ⟨?_, h5, h1, h2, h3, h4, rfl, ⟨rfl, rfl, rfl⟩, rfl⟩
  rw [accumulated, setSession_S, received_accumulate]
  rfl

/-- RX_BYTE, admitted: the byte is accumulated, a terminated frame is delivered, reception is armed again. -/
theorem execRxByte_eq {b : Byte} {s : State} (hi : s.S.initialized = true) (ha : s.S.rxArmed = true) :
    execRxByte b s = andThen
      (if terminated (accumulated b s).S then deliver (accumulated b s) else .next (accumulated b s))
      fun u => .next (leaveReceive u) := by
  simp only [execRxByte, admitted_of_initialized _ hi, ha, accumulated]
  rfl

theorem execRxByte_next {b : Byte} {s t : State} (h : execRxByte b s = .next t) :
    s.S.initialized = true ∧ s.S.rxArmed = true ∧
    ((terminated (accumulated b s).S = false ∧ t = leaveReceive (accumulated b s)) ∨
     (terminated (accumulated b s).S = true ∧ ∃ u, frameReceived (nextReceived b s.S) (accumulated b s) = .next u ∧
        t = leaveReceive (setSession (clearRx u.S) u))) := by
  have hi : s.S.initialized = true := (admitted_eq_next.1 h).1
  have ha : s.S.rxArmed = true := by
    obtain ⟨-, h⟩ := admitted_eq_next.1 h
    split at h
    · simp at h
    · simp_all
  refine ⟨hi, ha, ?_⟩
  rw [execRxByte_eq hi ha] at h
  obtain ⟨u, hu, h⟩ := andThen_eq_next.1 h
  cases h
  cases ht : terminated (accumulated b s).S with
  | false =>
    rw [ht] at hu
    cases hu
    exact .inl ⟨rfl, rfl⟩
  | true =>
    rw [ht, if_pos rfl, deliver, (accumulated_spec b s).1] at hu
    obtain ⟨v, hv, hu⟩ := andThen_eq_next.1 hu
    cases hu
    exact .inr ⟨rfl, v, hv, rfl⟩

end Sys2Proof.Machine
end

