-- ==== Sys2Proof/Laws/PerInstr.lean ====
section
/-! SUPPORT. Per-instruction facts. `EncodeHead`: the first encoded byte of a well-formed instruction falls under a row
of the opcode table for its port that has its mnemonic. -/

namespace Sys2Proof.Laws.EncodeHead

/-- Some row of the table covers the byte at the port and has the mnemonic. -/
def rowCovers (p : Port) (m : String) (b : Byte) : Bool :=
  opcodeTable.any fun r => r.covers p b && r.mnemonic == m

def Statement (i : Instr) : Prop :=
  ∀ cfg : Config, i.wf cfg = true →
    ∃ b bs, encode cfg i = b :: bs ∧ ∃ r ∈ opcodeTable, r.covers i.port b = true ∧ r.mnemonic = i.mnemonic

theorem of_row {i : Instr} {cfg : Config} {b : Byte} {bs : List Byte} (he : encode cfg i = b :: bs)
    (h : rowCovers i.port i.mnemonic b = true) :
    ∃ b bs, encode cfg i = b :: bs ∧ ∃ r ∈ opcodeTable, r.covers i.port b = true ∧ r.mnemonic = i.mnemonic := by
  simp only [rowCovers, List.any_eq_true, Bool.and_eq_true, beq_iff_eq] at h
  exact ⟨b, bs, he, h⟩

/-- The reserved ranges: their rows cover every byte of the range, the byte rows every byte. -/
theorem rows_cover : ∀ n < 256,
    rowCovers .rx "RX_BYTE" (BitVec.ofNat 8 n) = true ∧ rowCovers .reset "RESET" (BitVec.ofNat 8 n) = true ∧
    (n = 0 ∨ 9 ≤ n → rowCovers .cmd "CMD_RESERVED" (BitVec.ofNat 8 n) = true) ∧
    (8 ≤ n → rowCovers .frameRx "RX_RESERVED" (BitVec.ofNat 8 n) = true) ∧
    (n = 0 ∨ 8 ≤ n → rowCovers .frameTx "SERIALIZE_UNSUPPORTED" (BitVec.ofNat 8 n) = true) := by
  decide +kernel

theorem byte_rows (b : Byte) :
    rowCovers .rx "RX_BYTE" b = true ∧ rowCovers .reset "RESET" b = true ∧
    (b.toNat = 0 ∨ 9 ≤ b.toNat → rowCovers .cmd "CMD_RESERVED" b = true) ∧
    (8 ≤ b.toNat → rowCovers .frameRx "RX_RESERVED" b = true) ∧
    (b.toNat = 0 ∨ 8 ≤ b.toNat → rowCovers .frameTx "SERIALIZE_UNSUPPORTED" b = true) := by
  simpa using rows_cover b.toNat b.isLt

theorem enable (id : Byte) (base : Nat) (capacity : BitVec 32) (dataType : Byte) : Statement (.enable id base capacity dataType) := fun _ _ => of_row rfl rfl
theorem disable (id : Byte) : Statement (.disable id) := fun _ _ => of_row rfl rfl
theorem writeStaged (id : Byte) (bytes : List Byte) : Statement (.writeStaged id bytes) := fun _ _ => of_row rfl rfl
theorem clearStaged (id : Byte) : Statement (.clearStaged id) := fun _ _ => of_row rfl rfl
theorem clearAll : Statement .clearAll := fun _ _ => of_row rfl rfl
theorem sendAll : Statement .sendAll := fun _ _ => of_row rfl rfl
theorem notifyReady : Statement .notifyReady := fun _ _ => of_row rfl rfl
theorem notifyHalt : Statement .notifyHalt := fun _ _ => of_row rfl rfl
theorem cmdReserved (op : Byte) : Statement (.cmdReserved op) := fun _ h =>
  of_row rfl ((byte_rows op).2.2.1 (of_decide_eq_true h))
theorem rxByte (b : Byte) : Statement (.rxByte b) := fun _ _ => of_row rfl (byte_rows b).1
theorem reset (n : Byte) : Statement (.reset n) := fun _ _ => of_row rfl (byte_rows n).2.1
theorem rxNone (f : RxFrame) : Statement (.rxNone f) := fun _ _ => of_row rfl rfl
theorem rxSync (f : RxFrame) : Statement (.rxSync f) := fun _ _ => of_row rfl rfl
theorem rxSyncResp (f : RxFrame) : Statement (.rxSyncResp f) := fun _ _ => of_row rfl rfl
theorem rxAck (f : RxFrame) : Statement (.rxAck f) := fun _ _ => of_row rfl rfl
theorem rxRequest (f : RxFrame) : Statement (.rxRequest f) := fun _ _ => of_row rfl rfl
theorem rxData (f : RxFrame) : Statement (.rxData f) := fun _ _ => of_row rfl rfl
theorem rxStop (f : RxFrame) : Statement (.rxStop f) := fun _ _ => of_row rfl rfl
theorem rxDrop (f : RxFrame) : Statement (.rxDrop f) := fun _ _ => of_row rfl rfl
theorem rxReserved (type : Byte) (f : RxFrame) : Statement (.rxReserved type f) := fun _ h =>
  of_row rfl ((byte_rows type).2.2.2.1 (of_decide_eq_true h))
theorem txSync : Statement .txSync := fun _ _ => of_row rfl rfl
theorem txSyncResp : Statement .txSyncResp := fun _ _ => of_row rfl rfl
theorem txAck : Statement .txAck := fun _ _ => of_row rfl rfl
theorem txRequest : Statement .txRequest := fun _ _ => of_row rfl rfl
theorem txData : Statement .txData := fun _ _ => of_row rfl rfl
theorem txStop : Statement .txStop := fun _ _ => of_row rfl rfl
theorem txDrop : Statement .txDrop := fun _ _ => of_row rfl rfl
theorem serializeUnsupported (type : Byte) : Statement (.serializeUnsupported type) := fun _ h =>
  of_row rfl ((byte_rows type).2.2.2.2 (of_decide_eq_true h))

end Sys2Proof.Laws.EncodeHead
end

