-- ==== Sys2Proof/Laws/Shapes.lean ====
section
/-! SUPPORT. What a next state can be, said once for each class of instructions: the fields it may differ in, and how. -/

namespace Sys2Proof.Machine

/-- The halt service changes the connection, the latch, the trace and the transmit buffer (43_state_machine.md R233). -/
theorem serviceHalt_link {s u : State} (h : serviceHalt s = .next u) :
   ∃ c x os b, u = { s with S := { s.S with conn := c, userHalt := x }, trace := s.trace ++ os, txBuf := b } ∧
     (b = s.txBuf ∨ b = none) ∧
     ((c = s.S.conn ∧ x = s.S.userHalt ∧ ¬(s.S.conn = .transmitting ∧ s.S.userHalt = true)) ∨
       (s.S.conn = .transmitting ∧ s.S.userHalt = true ∧ c = .connected ∧ x = false)) := by
  rcases serviceHalt_cases s with ⟨h1, h2, h3⟩ | ⟨h1, h3⟩ <;> rw [h3] at h <;> cases h
  · exact ⟨.connected, false, [stopOutput s.cfg], none, rfl, .inr rfl, .inr ⟨h1, h2, rfl, rfl⟩⟩
  · exact ⟨_, _, [], _, by simp, .inl rfl, .inl ⟨rfl, rfl, h1⟩⟩

/-- The latch of NOTIFY_HALT (R244). -/
theorem latchHalt_link {s u : State} (h : latchHalt s = .next u) :
   ∃ c x os b, u = { s with S := { s.S with conn := c, userHalt := x }, trace := s.trace ++ os, txBuf := b } ∧
     (b = s.txBuf ∨ b = none) ∧
     ((c = s.S.conn ∧ x = s.S.userHalt ∧ s.S.conn ≠ .transmitting) ∨ (s.S.conn = .transmitting ∧
       c = .transmitting ∧ x = true ∧ s.cfg.haltService = .nextEvent) ∨
      (s.S.conn = .transmitting ∧ c = .connected ∧ x = false ∧ s.cfg.haltService = .immediate)) := by
  rcases latchHalt_cases s with ⟨c, hl⟩ | ⟨c, m, hl⟩ | ⟨c, m, hl⟩ <;> rw [hl] at h <;> cases h
  · exact ⟨_, _, [], _, by simp, .inl rfl, .inl ⟨rfl, rfl, c⟩⟩
  · exact ⟨_, _, [], _, by simp [setUserHalt], .inl rfl, .inr (.inl ⟨c, c, rfl, m⟩)⟩
  · exact ⟨.connected, false, [stopOutput s.cfg], none, rfl, .inr rfl, .inr (.inr ⟨c, rfl, rfl, m⟩)⟩

/-- FRAME_RECEIVED (R231): the connection, the latch, the trace and the transmit buffer, and how the first two move. -/
theorem frameReceived_link {f : List Byte} {s t : State} (h : frameReceived f s = .next t) :
   ∃ c x os b, t = { s with S := { s.S with conn := c, userHalt := x }, trace := s.trace ++ os, txBuf := b } ∧
     (b = s.txBuf ∨ b = none) ∧
     ((x = s.S.userHalt ∧ ¬(s.S.conn = .transmitting ∧ s.S.userHalt = true) ∧
         (c = s.S.conn ∨ c = .idle ∨ (s.S.conn = .idle ∧ c = .sync) ∨ (s.S.conn = .sync ∧
           c = .connected) ∨ (s.S.conn = .connected ∧ c = .transmitting))) ∨
      (s.S.conn = .transmitting ∧ s.S.userHalt = true ∧ x = false ∧ (c = .connected ∨ c = .idle ∨
        c = .transmitting))) ∧
     (s.S.conn = .transmitting → c = .idle → byteAt f 0 = 7) := by
  by_cases hl : 11 ≤ f.length
  · rw [frameReceived_eq hl] at h
    obtain ⟨u, hu, h⟩ := andThen_eq_next.1 h
    obtain ⟨c, x, os, b, rfl, hb, hc⟩ := serviceHalt_link hu
    obtain ⟨c', os', b', rfl, hb', hc'⟩ := handleType_next h
    refine ⟨c', x, os ++ os', b', by simp, ?_, ?_, ?_⟩
    · rcases hb' with rfl | rfl
      · exact hb
      · exact .inr rfl
    · simp only at hc'
      rcases hc with ⟨rfl, rfl, h0⟩ | ⟨h1, h2, rfl, rfl⟩
      · left; refine ⟨rfl, h0, ?_⟩
        rcases hc' with h | ⟨_, h, h'⟩ | ⟨_, h, h'⟩ | ⟨_, h, h'⟩ | ⟨_, h⟩ <;> simp_all
      · right; refine ⟨h1, h2, rfl, ?_⟩
        rcases hc' with h | ⟨_, h, h'⟩ | ⟨_, h, h'⟩ | ⟨_, h, h'⟩ | ⟨_, h⟩ <;> simp_all
    · intro h1 h2
      simp only at hc'
      rcases hc' with h | ⟨_, h, h'⟩ | ⟨_, h, h'⟩ | ⟨_, h, h'⟩ | ⟨h, -⟩
      · subst h2; rcases hc with ⟨rfl, -, -⟩ | ⟨-, -, rfl, -⟩
        · rw [h1] at h; simp at h
        · simp at h
      · subst h'; simp at h2
      · subst h'; simp at h2
      · subst h'; simp at h2
      · exact frameTypeOf_eq_some h
  · rw [frameReceived] at h
    obtain ⟨u, hu, h⟩ := andThen_eq_next.1 h
    have : parse f = .error .truncated := by rw [parse, if_pos (by simp only [minFrame]; omega)]
    rw [this] at h
    cases h
    obtain ⟨c, x, os, b, rfl, hb, hc⟩ := serviceHalt_link hu
    refine ⟨c, x, os, b, rfl, hb, ?_, ?_⟩
    · rcases hc with ⟨h1, h2, h3⟩ | ⟨h1, h2, rfl, rfl⟩
      · exact .inl ⟨h2, h3, .inl h1⟩
      · exact .inr ⟨h1, h2, rfl, .inl rfl⟩
    · intro h1 h2
      subst h2
      rcases hc with ⟨h, -, -⟩ | ⟨-, -, h, -⟩
      · rw [h1] at h; simp at h
      · simp at h

/-- RX_BYTE, field by field (42_receive_assembler.md R210). -/
theorem rxByte_link {b : Byte} {s t : State} (h : exec (.rxByte b) s = .next t) :
   s.S.initialized = true ∧ s.S.rxArmed = true ∧ t.buf = s.buf ∧ t.cfg = s.cfg ∧ t.input = s.input ∧
     (∃ os, t.trace = s.trace ++ os) ∧ (t.txBuf = s.txBuf ∨ t.txBuf = none) ∧
   t.S.slots = s.S.slots ∧ t.S.enabledCount = s.S.enabledCount ∧ t.S.reservedSize = s.S.reservedSize ∧
     t.S.userReady = s.S.userReady ∧ t.S.running = s.S.running ∧
   t.S.totalChannels = s.S.totalChannels ∧ t.S.initialized = s.S.initialized ∧ t.S.rxArmed = true ∧
   ((terminated (accumulated b s).S = false ∧ t.S.conn = s.S.conn ∧ t.S.userHalt = s.S.userHalt ∧
     t.S.rxBuf = (accumulated b s).S.rxBuf ∧ t.S.rxIdx = (accumulated b s).S.rxIdx) ∨
    (terminated (accumulated b s).S = true ∧ t.S.rxBuf = Vector.replicate 1024 0 ∧ t.S.rxIdx = 0 ∧
      ((t.S.userHalt = s.S.userHalt ∧ ¬(s.S.conn = .transmitting ∧ s.S.userHalt = true) ∧
         (t.S.conn = s.S.conn ∨ t.S.conn = .idle ∨ (s.S.conn = .idle ∧ t.S.conn = .sync) ∨ (s.S.conn = .sync ∧
           t.S.conn = .connected) ∨ (s.S.conn = .connected ∧ t.S.conn = .transmitting))) ∨
      (s.S.conn = .transmitting ∧ s.S.userHalt = true ∧ t.S.userHalt = false ∧
        (t.S.conn = .connected ∨ t.S.conn = .idle ∨ t.S.conn = .transmitting))) ∧
     (s.S.conn = .transmitting → t.S.conn = .idle → byteAt (nextReceived b s.S) 0 = 7))) := by
  obtain ⟨hi, ha, h⟩ := execRxByte_next h
  obtain ⟨h1, h2, ⟨l1, l2, l3, l4, l5, l6⟩, h4, h5, h6, h7, ⟨r1, r2, r3⟩, h9⟩ := accumulated_spec b s
  refine ⟨hi, ha, ?_⟩
  rcases h with ⟨ht, rfl⟩ | ⟨ht, u, hu, rfl⟩
  · exact ⟨h7, r2, r1, ⟨[], by simpa using h9⟩, .inl r3, h4, h5, h6, l3, l4, l5, l6, rfl, .inl ⟨ht, l1, l2, rfl, rfl⟩⟩
  · obtain ⟨c, x, os, bb, rfl, hb, hc, h7'⟩ := frameReceived_link hu
    rw [r3] at hb
    rw [l1, l2] at hc
    rw [l1] at h7'
    exact ⟨h7, r2, r1, ⟨os, by simp [h9]⟩, hb, h4, h5, h6, l3, l4, l5, l6, rfl, .inr ⟨ht, rfl, rfl, hc, h7'⟩⟩

theorem serializeInto_shape {ty : Byte} {s t : State} (h : serializeInto ty s = .next t) : ∃ r, t = setTxBuf r s := by
  obtain ⟨r, -, rfl⟩ := serializeInto_eq_next.1 h; exact ⟨_, rfl⟩

/-- The five registry operations. -/
def IsReg (i : Instr) : Prop := (∃ id base cap ty, i = .enable id base cap ty) ∨ (∃ id, i = .disable id) ∨
    (∃ id bytes, i = .writeStaged id bytes) ∨ (∃ id, i = .clearStaged id) ∨ i = .clearAll

/-- The three operations of the state machine at the command port. -/
def IsApp (i : Instr) : Prop := i = .sendAll ∨ i = .notifyReady ∨ i = .notifyHalt

/-- Every instruction that answers is in one of five classes. -/
theorem exec_class {i : Instr} {s t : State} (h : exec i s = .next t) :
   (∃ r, t = setTxBuf r s ∧ i.port = .frameTx) ∨
   (∃ T, handleType T s = .next t ∧ (T = some .drop → ∃ f, i = .rxDrop f) ∧ i.port = .frameRx) ∨
   (∃ b, i = .rxByte b) ∨ (∃ n, i = .reset n) ∨
   (s.S.initialized = true ∧ (IsReg i ∨ IsApp i)) := by
  cases i
  case rxByte b => exact .inr (.inr (.inl ⟨_, rfl⟩))
  case reset b => exact .inr (.inr (.inr (.inl ⟨_, rfl⟩)))
  case cmdReserved => exact absurd h (by simp [exec, execCmdReserved])
  case rxNone f => exact .inr (.inl ⟨none, h, by simp, rfl⟩)
  case rxReserved f => exact .inr (.inl ⟨none, h, by simp, rfl⟩)
  case rxSync f => exact .inr (.inl ⟨some .sync, h, by simp, rfl⟩)
  case rxSyncResp f => exact .inr (.inl ⟨some .syncResp, h, by simp, rfl⟩)
  case rxAck f => exact .inr (.inl ⟨some .ack, h, by simp, rfl⟩)
  case rxRequest f => exact .inr (.inl ⟨some .request, h, by simp, rfl⟩)
  case rxData f => exact .inr (.inl ⟨some .data, h, by simp, rfl⟩)
  case rxStop f => exact .inr (.inl ⟨some .stop, h, by simp, rfl⟩)
  case rxDrop f => exact .inr (.inl ⟨some .drop, h, by simp, rfl⟩)
  case txSync => exact .inl ((serializeInto_shape h).imp fun _ e => ⟨e, rfl⟩)
  case txSyncResp => exact .inl ((serializeInto_shape h).imp fun _ e => ⟨e, rfl⟩)
  case txAck => exact .inl ((serializeInto_shape h).imp fun _ e => ⟨e, rfl⟩)
  case txRequest => exact .inl ((serializeInto_shape h).imp fun _ e => ⟨e, rfl⟩)
  case txData => exact .inl ((serializeInto_shape h).imp fun _ e => ⟨e, rfl⟩)
  case txStop => exact .inl ((serializeInto_shape h).imp fun _ e => ⟨e, rfl⟩)
  case txDrop => exact .inl ((serializeInto_shape h).imp fun _ e => ⟨e, rfl⟩)
  case serializeUnsupported => exact .inl ((serializeInto_shape h).imp fun _ e => ⟨e, rfl⟩)
  case enable => exact .inr (.inr (.inr (.inr ⟨(execEnable_next h).1, .inl (by simp [IsReg])⟩)))
  case disable => exact .inr (.inr (.inr (.inr ⟨(execDisable_next h).1, .inl (by simp [IsReg])⟩)))
  case writeStaged => exact .inr (.inr (.inr (.inr ⟨(execWriteStaged_next h).1, .inl (by simp [IsReg])⟩)))
  case clearStaged => exact .inr (.inr (.inr (.inr ⟨(execClearStaged_next h).1, .inl (by simp [IsReg])⟩)))
  case clearAll => exact .inr (.inr (.inr (.inr ⟨(execClearAll_next h).1, .inl (by simp [IsReg])⟩)))
  case sendAll => exact .inr (.inr (.inr (.inr ⟨(execSendAll_next h).1, .inr (by simp [IsApp])⟩)))
  case notifyReady => exact .inr (.inr (.inr (.inr ⟨(execNotifyReady_next h).1, .inr (by simp [IsApp])⟩)))
  case notifyHalt => exact .inr (.inr (.inr (.inr ⟨(execNotifyHalt_next h).1, .inr (by simp [IsApp])⟩)))

/-- A registry operation changes the registry, `BUF` and the trace. -/
theorem reg_shape {i : Instr} {s t : State} (hi : IsReg i) (h : exec i s = .next t) :
   ∃ sl ec rs e b, t =
     { s with S := { s.S with slots := sl, enabledCount := ec, reservedSize := rs }, buf := b, trace := s.trace ++ [.ret e] } := by
  rcases hi with (⟨id, base, cap, ty, rfl⟩ | ⟨id, rfl⟩ | ⟨id, bytes, rfl⟩ | ⟨id, rfl⟩ | rfl)
  · obtain ⟨-, ⟨e, -, rfl⟩ | ⟨-, -, rfl⟩⟩ := execEnable_next h <;> exact ⟨_, _, _, _, _, rfl⟩
  · obtain ⟨-, ⟨e, -, rfl⟩ | ⟨-, rfl⟩⟩ := execDisable_next h <;> exact ⟨_, _, _, _, _, rfl⟩
  · obtain ⟨-, ⟨e, -, rfl⟩ | ⟨-, -, u, hu, rfl⟩⟩ := execWriteStaged_next h
    · exact ⟨_, _, _, _, _, rfl⟩
    · rw [(writeBytes_spec hu).1]; exact ⟨_, _, _, _, _, rfl⟩
  · obtain ⟨-, ⟨e, -, rfl⟩ | ⟨-, u, hu, rfl⟩⟩ := execClearStaged_next h
    · exact ⟨_, _, _, _, _, rfl⟩
    · rw [(writeBytes_spec hu).1]; exact ⟨_, _, _, _, _, rfl⟩
  · obtain ⟨-, rfl⟩ := execClearAll_next h; exact ⟨_, _, _, _, _, rfl⟩

/-- SEND_ALL, NOTIFY_READY and NOTIFY_HALT change the connection, the two user flags, the trace and the transmit buffer. -/
theorem app_shape {i : Instr} {s t : State} (hi : IsApp i) (h : exec i s = .next t) :
   ∃ c x r os b,
     t = { s with S := { s.S with conn := c, userHalt := x, userReady := r }, trace := s.trace ++ os, txBuf := b } ∧
     (b = s.txBuf ∨ b = none) ∧
     (r = s.S.userReady ∨ (i = .notifyReady ∧ r = true)) ∧
     ((c = s.S.conn ∧ x = s.S.userHalt) ∨
      (s.S.conn = .transmitting ∧ c = .transmitting ∧ x = true ∧ i = .notifyHalt ∧ s.cfg.haltService = .nextEvent) ∨
      (s.S.conn = .transmitting ∧ c = .connected ∧ x = false ∧ ((s.S.userHalt = true ∧
        i ≠ .sendAll) ∨ (s.cfg.haltService = .immediate ∧ i = .notifyHalt)))) := by
  rcases hi with rfl | rfl | rfl
  · obtain ⟨-, r, -, ⟨e, -, rfl⟩ | ⟨f, -, rfl⟩⟩ := execSendAll_next h
    · exact ⟨_, _, _, [_], none, rfl, .inr rfl, .inl rfl, .inl ⟨rfl, rfl⟩⟩
    · exact ⟨_, _, _, [.tx f, .ret .ok], none, by simp [emit, setTxBuf], .inr rfl, .inl rfl, .inl ⟨rfl, rfl⟩⟩
  · obtain ⟨-, u, hu, rfl⟩ := execNotifyReady_next h
    obtain ⟨c, x, os, b, rfl, hb, hc⟩ := serviceHalt_link hu
    refine ⟨c, x, true, os ++ [.ret .ok], b, by simp [emit, setUserReady], hb, .inr ⟨rfl, rfl⟩, ?_⟩
    rcases hc with ⟨h1, h2, -⟩ | ⟨h1, h2, h3, h4⟩
    · exact .inl ⟨h1, h2⟩
    · exact .inr (.inr ⟨h1, h3, h4, .inl ⟨h2, by simp⟩⟩)
  · obtain ⟨-, u, v, hu, hv, rfl⟩ := execNotifyHalt_next h
    obtain ⟨c, x, os, b, rfl, hb, hc⟩ := serviceHalt_link hu
    obtain ⟨c', x', os', b', rfl, hb', hc'⟩ := latchHalt_link hv
    refine ⟨c', x', _, os ++ os' ++ [.ret .ok], b', by simp [emit], ?_, .inl rfl, ?_⟩
    · rcases hb' with rfl | rfl
      · exact hb
      · exact .inr rfl
    · simp only at hc'
      rcases hc with ⟨rfl, rfl, h3⟩ | ⟨h1, h2, rfl, rfl⟩
      · rcases hc' with ⟨h1, h2, -⟩ | ⟨h1, h2, h3, h4⟩ | ⟨h1, h2, h3, h4⟩
        · exact .inl ⟨h1, h2⟩
        · exact .inr (.inl ⟨h1, h2, h3, by simp, h4⟩)
        · exact .inr (.inr ⟨h1, h2, h3, .inr ⟨h4, by simp⟩⟩)
      · rcases hc' with ⟨h3, h4, -⟩ | ⟨h1, -⟩ | ⟨h1, -⟩
        · exact .inr (.inr ⟨h1, h3, h4, .inl ⟨h2, by simp⟩⟩)
        · simp at h1
        · simp at h1

/-! ### Answers -/

theorem serviceHalt_next (s : State) : ∃ u, serviceHalt s = .next u := by
  rcases serviceHalt_cases s with ⟨-, -, h⟩ | ⟨-, h⟩ <;> exact ⟨_, h⟩

theorem stagedReadable_congr {s t : State} (h : t.S.slots = s.S.slots) (hc : t.cfg = s.cfg)
    (hs : StagedReadable s) : StagedReadable t := by
  intro i hi
  rw [slotAt_congr h, hc]; exact hs i hi

theorem transmit_answers {s : State} (T : FrameType) (h : StagedReadable s) : ∃ t, transmit T s = .next t := by
  obtain ⟨r, hr⟩ := serialize_answers (frameTypeCode T) h
  exact ⟨_, transmit_eq_next.2 ⟨r, hr, rfl⟩⟩

theorem handleType_answers {s : State} (T : Option FrameType) (h : StagedReadable s) :
    ∃ t, handleType T s = .next t := by
  unfold handleType
  split
  · exact ⟨_, rfl⟩
  · unfold onSync
    cases s.S.conn
    · exact transmit_answers _ (stagedReadable_congr (s := s) rfl rfl h)
    all_goals exact ⟨_, rfl⟩
  · exact ⟨_, rfl⟩
  · exact ⟨_, rfl⟩
  · exact ⟨_, rfl⟩
  · exact ⟨_, rfl⟩
  · exact ⟨_, rfl⟩
  · obtain ⟨r, hr⟩ := serialize_answers (frameTypeCode s.cfg.dropAckType) h
    exact ⟨_, onDrop_eq_next.2 ⟨r, hr, rfl⟩⟩

theorem frameReceived_answers {s : State} (f : List Byte) (hl : 11 ≤ f.length)
    (h : StagedReadable s) : ∃ t, frameReceived f s = .next t := by
  rw [frameReceived_eq hl]
  obtain ⟨u, hu⟩ := serviceHalt_next s
  obtain ⟨c, x, os, b, rfl, -⟩ := serviceHalt_link hu
  rw [hu]
  exact handleType_answers _ (stagedReadable_congr (s := s) rfl rfl h)

end Sys2Proof.Machine
end

