-- ==== Sys2Proof/Tests/Slice0.lean ====
section
/-! SUPPORT. Small tests: ill-formed terms, words written out from the encodings, single steps, and states that meet the
hypotheses of the statements. CR, S, X, A, T, H, M, SA and Z are the vectors of spec/95_test_vectors.md. -/

namespace Sys2Proof.Tests

open Sys2Proof.Machine

/-! ### Helpers -/

/-- The Session after `reset n`. -/
def start (n : Fin 33) : State := { State.reset with S := Session.afterReset n }

/-- `start 2` in another connection state, with the Halt latch. -/
def inState (c : ConnState) (halt : Bool) : State :=
  { start 2 with S := { (start 2).S with conn := c, userHalt := halt } }

/-- `start 2` with one slot set, the sums as given. -/
def withSlot (i : Nat) (x : Slot) (count reserved : Nat) (s : State) : State :=
  { s with S := { setSlot s.S i x with enabledCount := count, reservedSize := reserved } }

/-- Vector E1: two channels enabled and staged with `01 00 02 00` and `05`. -/
def e1 : State :=
  { withSlot 1 ⟨true, 4, 2, 1, 0x2000⟩ 2 6 (withSlot 0 ⟨true, 5, 4, 4, 0x1000⟩ 1 4 (start 2)) with
    buf := [(0x1000, 1), (0x1002, 2), (0x2000, 5)] }

/-- One slot with `n` bytes staged. -/
def staged (n : Nat) : State := withSlot 0 ⟨true, 6, 65536, n, 0⟩ 1 65536 (start 1)

/-- A state that holds accumulated bytes. -/
def holding (bs : List Byte) : State := { start 2 with S := bs.foldl (fun S b => appendRx b S) (start 2).S }

/-- The step answers a next state with the property. -/
def gives (r : Result State) (p : State → Bool) : Bool :=
  match r with
  | .next t => p t
  | .fault _ | .refused _ => false

/-- A frame with an empty data section, and its view. -/
def emptyFrame (type : Byte) : List Byte := [type, 0, 0, 0, 0, 0, 0, 0, 0x24, 0x25, 0x26]
def noData : RxFrame := ⟨0, #v[0, 0, 0, 0, 0], []⟩
/-- `RESP(2)` and `F(6)`. -/
def resp2 : Output := .tx [2, 1, 0, 0, 0, 0, 0, 0, 2, 0x24, 0x25, 0x26]
def stopF : Output := .tx [6, 0, 0, 0, 0, 0, 0, 0, 0x24, 0x25, 0x26]

/-! ### Well-formedness: an ill-formed term for each check -/

theorem test_wf_enable_base :
    (Instr.enable 0 (2 ^ 32) 4 5).wf Config.rc = false ∧ (Instr.enable 0 (2 ^ 32 - 1) 4 5).wf Config.rc = true := by
  decide
theorem test_wf_writeStaged_len (bytes : List Byte) (h : bytes.length = 2 ^ 32) :
    (Instr.writeStaged 0 bytes).wf Config.rc = false := by simp [Instr.wf, h]
theorem test_wf_cmdReserved_op :
    (Instr.cmdReserved 1).wf Config.rc = false ∧ (Instr.cmdReserved 8).wf Config.rc = false ∧
    (Instr.cmdReserved 9).wf Config.rc = true := by decide
theorem test_wf_rxReserved_type :
    (Instr.rxReserved 7 noData).wf Config.rc = false ∧ (Instr.rxReserved 8 noData).wf Config.rc = true := by decide
theorem test_wf_serializeUnsupported_type :
    (Instr.serializeUnsupported 1).wf Config.rc = false ∧ (Instr.serializeUnsupported 7).wf Config.rc = false ∧
    (Instr.serializeUnsupported 0).wf Config.rc = true := by decide

/-! ### Decoding: a word for each constructor (95_test_vectors.md section 2, 30_encoding.md R110, R116, R130) -/

theorem test_decode_enable : decode Config.rc .cmd [0x01, 0x01, 0x00, 0x20, 0x00, 0x00, 0x02, 0x00, 0x00, 0x00, 0x04] =
    .ok (.enable 1 0x2000 2 4, []) := by decide
theorem test_decode_enable_wide : decode Config.rc .cmd [0x01, 0, 0, 0, 0, 0, 0x00, 0x00, 0x01, 0x00, 0x06] =
    .ok (.enable 0 0 65536 6, []) := by decide
theorem test_decode_disable : decode Config.rc .cmd [0x02, 0x00] = .ok (.disable 0, []) := by decide
theorem test_decode_writeStaged : decode Config.rc .cmd [0x03, 0x01, 0x01, 0x00, 0x00, 0x00, 0x05] =
    .ok (.writeStaged 1 [5], []) := by decide
theorem test_decode_clearStaged : decode Config.rc .cmd [0x04, 0x01] = .ok (.clearStaged 1, []) := by decide
theorem test_decode_plain_commands :
    decode Config.rc .cmd [0x05] = .ok (.clearAll, []) ∧ decode Config.rc .cmd [0x06] = .ok (.sendAll, []) ∧
    decode Config.rc .cmd [0x07] = .ok (.notifyReady, []) ∧ decode Config.rc .cmd [0x08] = .ok (.notifyHalt, []) := by
  decide
theorem test_decode_cmdReserved :
    decode Config.rc .cmd [0x00] = .ok (.cmdReserved 0, []) ∧ decode Config.rc .cmd [0x09] = .ok (.cmdReserved 9, []) ∧
    decode Config.rc .cmd [0xFF] = .ok (.cmdReserved 0xFF, []) := by decide
theorem test_decode_byte_events :
    decode Config.rc .rx [0xA5] = .ok (.rxByte 0xA5, []) ∧ decode Config.rc .reset [0x20] = .ok (.reset 32, []) := by
  decide
theorem test_decode_rx_frames :
    decode Config.rc .frameRx (emptyFrame 0) = .ok (.rxNone noData, []) ∧
    decode Config.rc .frameRx (emptyFrame 1) = .ok (.rxSync noData, []) ∧
    decode Config.rc .frameRx [2, 1, 0, 0, 0, 0, 0, 0, 0x20, 0x24, 0x25, 0x26] =
      .ok (.rxSyncResp ⟨1, #v[0, 0, 0, 0, 0], [0x20]⟩, []) ∧
    decode Config.rc .frameRx (emptyFrame 3) = .ok (.rxAck noData, []) ∧
    decode Config.rc .frameRx (emptyFrame 4) = .ok (.rxRequest noData, []) ∧
    decode Config.rc .frameRx [5, 0xFF, 0xFF, 0xAA, 0xBB, 0xCC, 0xDD, 0xEE, 0x24, 0x25, 0x26] =
      .ok (.rxData ⟨0xFFFF, #v[0xAA, 0xBB, 0xCC, 0xDD, 0xEE], []⟩, []) ∧
    decode Config.rc .frameRx (emptyFrame 6) = .ok (.rxStop noData, []) ∧
    decode Config.rc .frameRx (emptyFrame 7) = .ok (.rxDrop noData, []) ∧
    decode Config.rc .frameRx (emptyFrame 8) = .ok (.rxReserved 8 noData, []) := by decide
theorem test_decode_serialize_operands :
    decode Config.rc .frameTx [1] = .ok (.txSync, []) ∧ decode Config.rc .frameTx [2] = .ok (.txSyncResp, []) ∧
    decode Config.rc .frameTx [3] = .ok (.txAck, []) ∧ decode Config.rc .frameTx [4] = .ok (.txRequest, []) ∧
    decode Config.rc .frameTx [5] = .ok (.txData, []) ∧ decode Config.rc .frameTx [6] = .ok (.txStop, []) ∧
    decode Config.rc .frameTx [7] = .ok (.txDrop, []) ∧
    decode Config.rc .frameTx [0] = .ok (.serializeUnsupported 0, []) ∧
    decode Config.rc .frameTx [255] = .ok (.serializeUnsupported 255, []) := by decide
/-- R131, R132, and A3: what is no instruction. -/
theorem test_decode_rejects :
    decode Config.rc .cmd [] = .error .short ∧ decode Config.rc .cmd [0x02] = .error .short ∧
    decode Config.rc .cmd [0x03, 0, 2, 0, 0, 0, 9] = .error .short ∧
    decode { Config.rc with addrW := 12 } .cmd [0x01, 0, 0x00, 0x10, 4, 0, 0, 0, 5] = .error .baseTooWide ∧
    decode Config.rc .frameRx [0, 0, 0, 0, 0, 0, 0, 0x24, 0x25, 0x26] = .error .truncated := by decide

/-- 30_encoding.md R116, R118, R127, R128: the code numbers. -/
theorem test_codes :
    [DataType.char, .int8, .int16, .int32, .uint8, .uint16, .uint32, .float8, .float16, .float32].map dataTypeCode =
      [0, 1, 2, 3, 4, 5, 6, 7, 8, 9] ∧
    [Status.ok, .invalidChannel, .capacityExceeded, .sizeExceeded, .bufferTooSmall, .truncated, .unsupportedFrameType,
      .lengthOverflow].map statusCode = [0, 1, 2, 3, 4, 5, 6, 7] ∧
    [Signal.stop, .start].map signalCode = [0, 1] := by decide

/-! ### Channel Registry (95_test_vectors.md section 6) -/

theorem test_enable_CR3 : gives (exec (.enable 0 0x5000 40000 3) (withSlot 0 ⟨true, 0, 40000, 0, 0x1000⟩ 1 40000 (start 2)))
    (fun t => t.trace == [.ret .capacityExceeded] && slotAt t.S 0 == ⟨true, 0, 40000, 0, 0x1000⟩ &&
      t.S.reservedSize == 40000) = true := by decide
theorem test_enable_CR4 : gives (exec (.enable 0 0x1000 8 5) e1)
    (fun t => t.trace == [.ret .ok] && slotAt t.S 0 == ⟨true, 5, 8, 0, 0x1000⟩ && t.S.enabledCount == 2 &&
      t.S.reservedSize == 10 && t.buf == e1.buf) = true := by decide
theorem test_disable_CR13 : gives (exec (.disable 0) e1)
    (fun t => t.trace == [.ret .ok] && slotAt t.S 0 == Slot.empty && t.S.enabledCount == 1 && t.S.reservedSize == 2) = true
  := by decide
theorem test_disable_twice_CR13 : gives (exec (.disable 0) (start 2)) (fun t => t.trace == [.ret .invalidChannel]) = true
  := by decide
theorem test_writeStaged_CR9 : gives (exec (.writeStaged 1 [5, 6, 7]) e1)
    (fun t => t.trace == [.ret .sizeExceeded] && t.buf == e1.buf && (slotAt t.S 1).stagedSize == 1) = true := by decide
theorem test_writeStaged_CR21 : gives (exec (.writeStaged 1 [0xCC])
      { withSlot 1 ⟨true, 4, 2, 0, 0x1001⟩ 2 4 (withSlot 0 ⟨true, 4, 2, 2, 0x1000⟩ 1 2 (start 2)) with
        buf := [(0x1000, 0xAA), (0x1001, 0xBB)] })
    (fun t => t.buf == [(0x1000, 0xAA), (0x1001, 0xCC)] && (slotAt t.S 1).stagedSize == 1 &&
      (slotAt t.S 0).stagedSize == 2) = true := by decide
theorem test_clearStaged_CR11 : gives (exec (.clearStaged 1) e1)
    (fun t => t.trace == [.ret .ok] && slotAt t.S 1 == ⟨true, 4, 2, 0, 0x2000⟩ &&
      Memory.read t.buf 0x2000 == 0 && Memory.read t.buf 0x2001 == 0 &&
        t.buf == [(0x1000, 1), (0x1002, 2)]) = true := by decide
theorem test_clearStaged_CR12 : gives (exec (.clearStaged 0) (start 2)) (fun t => t.trace == [.ret .invalidChannel]) = true
  := by decide
theorem test_clearAll_CR14 : gives (exec .clearAll e1)
    (fun t => t.trace == [.ret .ok] && slotAt t.S 0 == Slot.empty && slotAt t.S 1 == Slot.empty &&
      t.S.enabledCount == 0 && t.S.reservedSize == 0 && t.buf == e1.buf) = true := by decide

/-! ### Frame Codec (sections 3 and 4) -/

theorem test_txSync_S1 : gives (exec .txSync (start 2)) (fun t => t.txBuf == some (.frame (emptyFrame 1))) = true := by decide
theorem test_txSyncResp_S4 : gives (exec .txSyncResp (start 32))
    (fun t => t.txBuf == some (.frame [2, 1, 0, 0, 0, 0, 0, 0, 0x20, 0x24, 0x25, 0x26])) = true := by decide
theorem test_txAck_S5 : gives (exec .txAck (start 2)) (fun t => t.txBuf == some (.frame (emptyFrame 3))) = true := by decide
theorem test_txRequest_S5 : gives (exec .txRequest (start 2)) (fun t => t.txBuf == some (.frame (emptyFrame 4))) = true
  := by decide
theorem test_txData_E1 : gives (exec .txData e1)
    (fun t => t.txBuf == some (.frame [5, 0x0E, 0, 0, 0, 0, 0, 0, 2, 0, 4, 0, 5, 1, 0, 2, 0, 1, 1, 0, 4, 5,
      0x24, 0x25, 0x26])) = true := by decide
theorem test_txData_S12 : gives (exec .txData (staged 65531)) (fun t => t.txBuf == some (.error .lengthOverflow)) = true
  := by decide
theorem test_txStop_S16 : gives (exec .txStop
      { start 2 with cfg := { Config.rc with hdrReserved := #v[0xAA, 0xBB, 0xCC, 0xDD, 0xEE] } })
    (fun t => t.txBuf == some (.frame [6, 0, 0, 0xAA, 0xBB, 0xCC, 0xDD, 0xEE, 0x24, 0x25, 0x26])) = true := by decide
theorem test_txDrop_S5 : gives (exec .txDrop (start 2)) (fun t => t.txBuf == some (.frame (emptyFrame 7))) = true := by decide
theorem test_serializeUnsupported_S14 : gives (exec (.serializeUnsupported 8) (start 2))
    (fun t => t.txBuf == some (.error .unsupportedFrameType)) = true := by decide
theorem test_parse_X :
    parse [0, 1, 0, 0, 0, 0, 0, 0, 0x24, 0x25] = .error .truncated ∧
    parse (emptyFrame 8) = .error .unsupportedFrameType ∧
    parse [3, 0x34, 0x12, 0, 0, 0, 0, 0, 0x24, 0x25, 0x26] = .frame ⟨.ack, 0x1234, []⟩ ∧
    parse [1, 0, 0, 0, 0, 0, 0, 0, 0, 0, 0] = .frame ⟨.sync, 0, []⟩ := by decide

/-! ### Connection State Machine (section 7) -/

theorem test_rxSync_M : gives (exec (.rxSync noData) (inState .idle false))
    (fun t => t.S.conn == .sync && t.trace == [resp2]) = true := by decide
theorem test_rxSync_T1 : gives (exec (.rxSync noData) { start 2 with cfg := { Config.rc with txBufferSize := 11 } })
    (fun t => t.S.conn == .sync && t.trace == [.err .bufferTooSmall]) = true := by decide
theorem test_rxAck_M : gives (exec (.rxAck noData) (inState .sync false))
    (fun t => t.S.conn == .connected && t.trace == []) = true := by decide
theorem test_rxRequest_M : gives (exec (.rxRequest noData) (inState .connected false))
    (fun t => t.S.conn == .transmitting && t.trace == [.sig .start]) = true := by decide
theorem test_rxStop_M : gives (exec (.rxStop noData) (inState .transmitting false))
    (fun t => t.S.conn == .transmitting && t.trace == [.sig .stop]) = true := by decide
theorem test_rxDrop_M : gives (exec (.rxDrop noData) (inState .transmitting false))
    (fun t => t.S.conn == .idle && t.trace == [.sig .stop, resp2]) = true := by decide
theorem test_rxDrop_T3 : gives (exec (.rxDrop noData)
      { inState .connected false with cfg := { Config.rc with dropAckType := .data } })
    (fun t => t.S.conn == .idle && t.trace == [.tx [5, 1, 0, 0, 0, 0, 0, 0, 0, 0x24, 0x25, 0x26]]) = true := by decide
theorem test_ignored_rows_M :
    gives (exec (.rxSyncResp noData) (inState .sync false)) (fun t => t.S.conn == .sync && t.trace == []) = true ∧
    gives (exec (.rxData noData) (inState .transmitting false)) (fun t => t.S.conn == .transmitting && t.trace == []) = true ∧
    gives (exec (.rxNone noData) (inState .idle false)) (fun t => t.S.conn == .idle && t.trace == []) = true ∧
    gives (exec (.rxReserved 8 noData) (inState .connected false)) (fun t => t.S.conn == .connected && t.trace == []) = true
  := by decide
theorem test_frameReceived_H2 : gives (frameReceived (emptyFrame 7) (inState .transmitting true))
    (fun t => t.S.conn == .idle && t.S.userHalt == false && t.trace == [stopF, resp2]) = true := by decide
theorem test_frameReceived_H14 : gives (frameReceived (emptyFrame 0) (inState .transmitting true))
    (fun t => t.S.conn == .connected && t.trace == [stopF]) = true := by decide
theorem test_notifyHalt_H10 : gives (exec .notifyHalt
      { inState .transmitting false with cfg := { Config.rc with haltService := .immediate } })
    (fun t => t.S.conn == .connected && t.S.userHalt == false && t.trace == [stopF, .ret .ok]) = true := by decide
theorem test_notifyHalt_H5 : gives (exec .notifyHalt (inState .transmitting true))
    (fun t => t.S.conn == .connected && t.S.userHalt == false && t.trace == [stopF, .ret .ok]) = true := by decide
theorem test_notifyReady_H6 : gives (exec .notifyReady (inState .transmitting true))
    (fun t => t.S.conn == .connected && t.S.userReady && t.trace == [stopF, .ret .ok]) = true := by decide
theorem test_sendAll_H7 : gives (exec .sendAll (inState .transmitting true))
    (fun t => t.S.conn == .transmitting && t.S.userHalt && t.txBuf == none &&
      t.trace == [.tx [5, 1, 0, 0, 0, 0, 0, 0, 0, 0x24, 0x25, 0x26], .ret .ok]) = true := by decide
theorem test_sendAll_SA2 : gives (exec .sendAll (staged 2033))
    (fun t => t.trace == [.ret .bufferTooSmall] && t.txBuf == none) = true := by decide

/-! ### Receive Assembler and reset (sections 5 and 8) -/

theorem test_rxByte_A1 : gives (exec (.rxByte 0x26) (holding [1, 0, 0, 0, 0, 0, 0, 0, 0x24, 0x25]))
    (fun t => t.S.rxIdx == 0 && t.S.rxArmed && t.S.conn == .sync && t.trace == [resp2]) = true := by decide +kernel
theorem test_rxByte_A3 : gives (exec (.rxByte 0x26) (holding [0, 0, 0, 0, 0, 0, 0, 0x24, 0x25]))
    (fun t => t.S.rxIdx == 10 && t.S.rxArmed && t.trace == []) = true := by decide +kernel
theorem test_reset_Z1 : gives (exec (.reset 2) { e1 with S := { e1.S with conn := .transmitting, userHalt := true } })
    (fun t => t.S.conn == .idle && t.S.userHalt == false && t.S.totalChannels == 2 && slotAt t.S 0 == Slot.empty &&
      t.S.reservedSize == 0 && t.S.rxArmed && t.S.initialized && t.buf == e1.buf && t.trace == []) = true := by decide
/-- A byte no longer listed once it is the unlisted one, and a byte listed in its place (20_memory.md R83; log 6). -/
theorem test_memory_write_keeps_the_form :
    Memory.write [(1, 7), (2, 8)] 1 0 = [(2, 8)] ∧ Memory.write [(1, 7), (3, 8)] 2 9 = [(1, 7), (2, 9), (3, 8)] ∧
    Memory.write [(1, 7)] 1 6 = [(1, 6)] := by decide
theorem test_reset_Z2 : exec (.reset 33) (start 2) = .refused (.resetOperandOutOfRange 33) := rfl
theorem test_cmdReserved_R132 : exec (.cmdReserved 9) (start 2) = .refused (.reservedCommand 9) := rfl

/-! ### Steps -/

/-- Two commands in one delivery: the second is left in front (log 8). -/
theorem test_step_leaves_the_next_command : gives (step { start 2 with input := [.cmd [0x07, 0x05], .rx 1] })
    (fun t => t.S.userReady && t.trace == [.ret .ok] && t.input == [.cmd [0x05], .rx 1]) = true := by decide
theorem test_withFetchWord : gives (step ((start 2).withFetchWord 8 0x07)) (fun t => t.S.userReady && t.input == []) = true
  := by decide
theorem test_tableWord : decodeTableWord 8 0x03 = some (.writeStaged 0 []) := by decide

/-! ### Witnesses: states and operands that meet the hypotheses of the statements in Obligations.lean -/

/-- `e1` meets the invariant: two channels enabled and staged inside `BUF`. -/
theorem e1_inv : Inv e1 := by
  refine ⟨⟨by decide, by decide⟩, rfl, fun _ => ⟨?_, ?_, ⟨by decide, by decide⟩, ⟨zerosAbove_clearRx e1.S, by decide, rfl⟩,
    ?_, rfl⟩⟩
  · rw [registryOk_iff]; decide
  · unfold SlotsOk; decide
  · unfold StagedReadable; decide

theorem witness_EveryEncodedInstructionDecodesBack :
    (Instr.enable 255 (2 ^ 32 - 1) 0xFFFFFFFF 200).wf Config.rc = true ∧
    (Instr.rxReserved 8 noData).wf Config.rc = true ∧ (Instr.rxReserved 8 noData).port = .frameRx := by decide
theorem witness_DecodedInstructionsAreWellFormed :
    decode Config.rc .cmd [0x09, 1] = .ok (.cmdReserved 9, [1]) := by decide
theorem witness_DecodingFollowsTheOpcodeTable :
    decode Config.rc .frameTx [8] = .ok (.serializeUnsupported 8, []) := by decide
theorem witness_ConsumedBytesAreTheEncoding :
    Port.cmd ≠ Port.frameRx ∧ decode Config.rc .cmd [0x02, 7, 0x05] = .ok (.disable 7, [0x05]) := by decide
/-- One byte short, for each length. -/
theorem witness_ReservedAndShortCommandsAreRefused :
    ([] : List Byte).length < commandLength Config.rc [] ∧ [0x02].length < commandLength Config.rc [0x02] ∧
    [0x03, 0, 2, 0, 0, 0, 9].length < commandLength Config.rc [0x03, 0, 2, 0, 0, 0, 9] ∧
    [0x01, 0, 0, 0, 0, 0, 4, 0, 0, 0].length < commandLength Config.rc [0x01, 0, 0, 0, 0, 0, 4, 0, 0, 0] := by decide
/-- A base at the bound and one below it, with a 12-bit address space. -/
theorem witness_ReservedAndShortCommandsAreRefused_base :
    let cfg : Config := { Config.rc with addrW := 12 }
    [(0x00 : Byte), 0x10].length = addrBytes cfg ∧ [(4 : Byte), 0, 0, 0].length = 4 ∧
    2 ^ cfg.addrW ≤ leNat [0x00, 0x10] ∧ ¬2 ^ cfg.addrW ≤ leNat [0xFF, 0x0F] := by decide
theorem witness_StepRunsTheDecodedInstruction :
    decode Config.rc .cmd [0x07, 0x08] = .ok (.notifyReady, [0x08]) ∧
    decode Config.rc .cmd [0x07] = .ok (.notifyReady, []) ∧
    decode Config.rc .rx [0x24] = .ok (.rxByte 0x24, []) ∧ decode Config.rc .reset [33] = .ok (.reset 33, []) := by decide
theorem witness_StepOnAnEncodedEventRunsIt :
    (Instr.writeStaged 0 [1]).wf Config.rc = true ∧
    eventOf Config.rc (.writeStaged 0 [1]) = some (.cmd [3, 0, 1, 0, 0, 0, 1]) ∧
    eventOf Config.rc (.rxByte 1) = some (.rx 1) ∧ eventOf Config.rc (.reset 2) = some (.reset 2) := by decide
/-- The last address of `BUF` and the first beyond it. -/
theorem witness_IdleAndHostWriteSteps :
    (start 2).input = [] ∧ 2 ^ 32 - 1 < 2 ^ (start 2).cfg.addrW ∧ 2 ^ (start 2).cfg.addrW ≤ 2 ^ 32 := by decide
/-- Power-on. -/
theorem witness_InadmissibleEventsAreRefused :
    let s : State := { start 2 with S := { (start 2).S with initialized := false } }
    s.S.initialized = false ∧ (∀ n, Event.rx 1 ≠ .reset n) ∧ (∀ a v, Event.rx 1 ≠ .bufWrite a v) := by simp

/-! Registry: the failing and the succeeding side of each check, at its boundary. -/

theorem witness_EnableFollowsItsRule :
    e1.S.initialized = true ∧ e1.S.totalChannels.val ≤ (2 : Byte).toNat ∧ ¬e1.S.totalChannels.val ≤ (1 : Byte).toNat ∧
    65536 < e1.S.reservedSize + (65531 : BitVec 32).toNat ∧ ¬65536 < e1.S.reservedSize + (65530 : BitVec 32).toNat ∧
    (slotAt e1.S 1).enabled = true ∧ (slotAt (start 2).S 1).enabled = false := by decide
theorem witness_DisableFollowsItsRule :
    e1.S.initialized = true ∧ e1.S.totalChannels.val ≤ (2 : Byte).toNat ∧ ¬e1.S.totalChannels.val ≤ (1 : Byte).toNat ∧
    (slotAt e1.S 1).enabled = true ∧ (slotAt (start 2).S 1).enabled = false := by decide
/-- A channel whose two bytes are the last of `BUF`, and one that reaches one byte beyond. -/
def atTheTop (capacity : Nat) : State := withSlot 0 ⟨true, 4, capacity, 0, 2 ^ 32 - 2⟩ 1 capacity (start 1)
theorem witness_WriteStagedFollowsItsRule :
    (atTheTop 3).S.initialized = true ∧
    ((atTheTop 3).S.totalChannels.val ≤ (1 : Byte).toNat) ∧
    ¬((atTheTop 3).S.totalChannels.val ≤ (0 : Byte).toNat ∨ (slotAt (atTheTop 3).S 0).enabled = false) ∧
    (slotAt (atTheTop 3).S 0).capacity < [1, 2, 3, 4].length ∧
    ([1, 2, 3].length ≤ (slotAt (atTheTop 3).S 0).capacity ∧
      ∃ k < [1, 2, 3].length, 2 ^ 32 ≤ (slotAt (atTheTop 3).S 0).base + k) ∧
    (∀ k < [1, 2].length, (slotAt (atTheTop 3).S 0).base + k < 2 ^ 32) := by decide
theorem witness_ClearStagedFollowsItsRule :
    (atTheTop 2).S.initialized = true ∧
    ((atTheTop 2).S.totalChannels.val ≤ (1 : Byte).toNat) ∧
    ¬((atTheTop 2).S.totalChannels.val ≤ (0 : Byte).toNat ∨ (slotAt (atTheTop 2).S 0).enabled = false) ∧
    (∃ k < (slotAt (atTheTop 3).S 0).capacity, 2 ^ 32 ≤ (slotAt (atTheTop 3).S 0).base + k) ∧
    (∀ k < (slotAt (atTheTop 2).S 0).capacity, (slotAt (atTheTop 2).S 0).base + k < 2 ^ 32) := by decide
theorem witness_ClearAllFollowsItsRule : e1.S.initialized = true := rfl
theorem witness_RegistryOperationsDoNoInputOutput : gives (exec (.clearStaged 1) e1) (fun _ => true) = true := by decide
theorem witness_RegistryOperationsIgnoreTheConnectionState :
    (∃ id, Instr.disable 1 = .disable id) ∧ e1.S.initialized = true ∧ gives (exec (.disable 1) e1) (fun _ => true) = true :=
  ⟨⟨1, rfl⟩, rfl, by decide⟩
theorem witness_FailedCommandsChangeNothing :
    (Instr.enable 2 0x3000 1 0).port = .cmd ∧
    gives (exec (.enable 2 0x3000 1 0) (start 2))
      (fun t => t.trace == (start 2).trace ++ ([] ++ [.ret .invalidChannel])) = true ∧
    Status.invalidChannel ≠ .ok := by decide
theorem witness_RegistrySumsHoldAlongEveryRun :
    RegistryOk e1.S ∧ gives (execAll [.disable 0, .enable 0 0 65534 5, .rxByte 1, .reset 2] e1) (fun _ => true) = true :=
  ⟨(e1_inv.2.2 rfl).1, by decide +kernel⟩

/-! Codec: the boundaries of the data length and of the transmit buffer. -/

/-- `n` = 65536 and 65535; a transmit buffer one byte too small for it and, for E1, exactly large enough. -/
theorem witness_SerializeOfData :
    65535 < dataLen (staged 65531).S .data ∧
    (dataLen (staged 65530).S .data = 65535 ∧ (65545 : Nat) < 11 + dataLen (staged 65530).S .data) ∧
    11 + dataLen e1.S .data = 25 := by decide
theorem witness_SerializeOfData_bytes : StagedReadable e1 := by unfold StagedReadable; decide
/-- The last staged byte is the first address beyond `BUF`. -/
theorem witness_SerializeOfData_refusal :
    let s := withSlot 0 ⟨true, 4, 3, 3, 2 ^ 32 - 2⟩ 1 3 (start 1)
    dataLen s.S .data = 8 ∧ 0 ∈ stagedIds s.S ∧ (∃ k < 3, 2 ^ s.cfg.addrW ≤ (slotAt s.S 0).base + k) := by decide
theorem witness_SerializeOfUnsupportedCodes : (0 : Byte).toNat = 0 ∧ 8 ≤ (8 : Byte).toNat := by decide
/-- Also for ParseRecoversASerializedFrame and DataFrameRecordsReadBack. -/
theorem witness_SerializedFramesAreSelfConsistent :
    serialize e1 5 = .next (.frame [5, 0x0E, 0, 0, 0, 0, 0, 0, 2, 0, 4, 0, 5, 1, 0, 2, 0, 1, 1, 0, 4, 5,
      0x24, 0x25, 0x26]) := rfl
theorem witness_ParseRecoversASerializedFrame :
    serialize (start 2) (frameTypeCode .syncResp) = .next (.frame [2, 1, 0, 0, 0, 0, 0, 0, 2, 0x24, 0x25, 0x26]) := rfl
theorem witness_DataFrameRecordsReadBack :
    serialize (start 2) 5 = .next (.frame [5, 1, 0, 0, 0, 0, 0, 0, 0, 0x24, 0x25, 0x26]) := rfl
theorem witness_ParseFollowsItsRule :
    (emptyFrame 7).length = 11 ∧ (byteAt (emptyFrame 8) 0).toNat = 8 ∧ (byteAt (emptyFrame 7) 0).toNat = 7 ∧
    (byteAt (emptyFrame 1) 0).toNat = 1 ∧ ((emptyFrame 1).drop 1).length = 10 := by decide
theorem witness_SerializeAndReceptionAnswerUnderTheInvariant : Inv e1 ∧ e1.S.initialized = true := ⟨e1_inv, rfl⟩

/-! Connection. -/

theorem witness_RxSyncFollowsItsRule :
    (inState .idle false).S.conn = .idle ∧ (inState .sync false).S.conn ≠ .idle := by decide
theorem witness_RxAckFollowsItsRule :
    (inState .sync false).S.conn = .sync ∧ (inState .idle false).S.conn ≠ .sync := by decide
theorem witness_RxRequestFollowsItsRule :
    (inState .connected false).S.conn = .connected ∧ (inState .sync false).S.conn ≠ .connected := by decide
theorem witness_RxStopFollowsItsRule :
    (inState .transmitting false).S.conn = .transmitting ∧ (inState .connected false).S.conn ≠ .transmitting := by decide
theorem witness_HaltServiceFollowsItsRule :
    (inState .transmitting true).S.conn = .transmitting ∧ (inState .transmitting true).S.userHalt = true ∧
    (inState .transmitting false).S.userHalt = false ∧ (inState .connected true).S.conn ≠ .transmitting := by decide
theorem witness_HandshakeReachesTransmittingWithOneStart : (inState .idle false).S.conn = .idle := rfl
theorem witness_RxDropFollowsItsRule : e1.cfg.dropAckType = .syncResp ∧ StagedReadable e1 :=
  ⟨rfl, witness_SerializeOfData_bytes⟩
theorem witness_RejectedFramesAreIgnored : 8 ≤ (8 : Byte).toNat ∧ ((emptyFrame 8).drop 1).length = 10 := by decide
theorem witness_FrameReceivedRunsTheRowOfItsType :
    decode Config.rc .frameRx (emptyFrame 4) = .ok (.rxRequest noData, []) := by decide
theorem witness_FrameHandlingReadsOnlyTheTypeByte :
    11 ≤ (emptyFrame 1).length ∧ 11 ≤ [1, 2, 3, 4, 5, 6, 7, 8, 9, 10, (11 : Byte)].length ∧
    byteAt (emptyFrame 1) 0 = byteAt [1, 2, 3, 4, 5, 6, 7, 8, 9, 10, 11] 0 := by decide
theorem witness_NotifyReadyFollowsItsRule : (inState .transmitting true).S.initialized = true := rfl
theorem witness_NotifyHaltFollowsItsRule : (inState .transmitting false).S.initialized = true := rfl
/-- The premises on `n` and on the bytes are those of SerializeOfData, with its witnesses; here with initialized engines. -/
theorem witness_SendAllFollowsItsRule :
    e1.S.initialized = true ∧ 11 + dataLen e1.S .data ≤ e1.cfg.txBufferSize ∧ StagedReadable e1 ∧
    (staged 65531).S.initialized = true ∧ 65535 < dataLen (staged 65531).S .data ∧
    (dataLen (staged 2033).S .data ≤ 65535 ∧ (staged 2033).cfg.txBufferSize < 11 + dataLen (staged 2033).S .data) :=
  ⟨rfl, by decide, witness_SerializeOfData_bytes, rfl, by decide, by decide⟩
/-- One witness for each of the three events. -/
theorem witness_LatchedHaltSendsOneStopAtTheNextEvent :
    let s := inState .transmitting true
    s.cfg.Legal ∧ s.cfg.dropAckType ≠ .stop ∧ s.S.conn = .transmitting ∧ s.S.userHalt = true ∧
    gives (frameReceived (emptyFrame 4) s) (fun _ => true) = true ∧ gives (exec .notifyReady s) (fun _ => true) = true ∧
    gives (exec .notifyHalt s) (fun _ => true) = true := by decide
theorem witness_RepeatedSendAllSendsTheSamePayload :
    gives (exec .sendAll e1) (fun t => gives (execAll [.sendAll, .notifyReady, .rxByte 1] t) (fun _ => true)) = true := by
  decide +kernel
theorem witness_ConnectionMovesAlongTheTable :
    gives (step { inState .transmitting true with input := [.cmd [0x07]] }) (fun t => t.S.conn == .connected) = true := by
  decide
/-- Each way out of Transmitting. -/
theorem witness_TransmittingIsLeftOnlyByHaltDropOrReset :
    gives (exec (.reset 2) (inState .transmitting false)) (fun t => t.S.conn != .transmitting) = true ∧
    gives (exec (.rxDrop noData) (inState .transmitting false)) (fun t => t.S.conn != .transmitting) = true ∧
    gives (exec .notifyReady (inState .transmitting true)) (fun t => t.S.conn != .transmitting) = true ∧
    gives (exec .notifyHalt { inState .transmitting false with cfg := { Config.rc with haltService := .immediate } })
      (fun t => t.S.conn != .transmitting) = true := by decide
/-- By a byte that completes a DROP frame, and by one that completes an ignored frame and finds a Halt latched. -/
theorem witness_TransmittingIsLeft_by_a_byte :
    let s := holding [7, 0, 0, 0, 0, 0, 0, 0, 0x24, 0x25]
    let u := holding [0, 0, 0, 0, 0, 0, 0, 0, 0x24, 0x25]
    gives (exec (.rxByte 0x26) { s with S := { s.S with conn := .transmitting } })
      (fun t => t.S.conn == .idle) = true ∧
    gives (exec (.rxByte 0x26) { u with S := { u.S with conn := .transmitting, userHalt := true } })
      (fun t => t.S.conn == .connected) = true := by decide +kernel

/-! Receive Assembler. -/

/-- Ten bytes that end in a terminator, one below the minimum. -/
theorem witness_RxByteAccumulates :
    let s := holding [0, 0, 0, 0, 0, 0, 0, 0x24, 0x25]
    s.S.initialized = true ∧ s.S.rxArmed = true ∧ s.S.rxIdx.val ≠ 1023 ∧
    ¬(11 ≤ (received s.S ++ [0x26]).length ∧
      (received s.S ++ [0x26]).drop ((received s.S ++ [0x26]).length - 3) = [0x24, 0x25, 0x26]) := by decide +kernel
/-- Eleven bytes, the minimum. -/
theorem witness_RxByteDeliversATerminatedFrame :
    let s := holding [3, 0, 0, 0, 0, 0, 0, 0, 0x24, 0x25]
    s.S.initialized = true ∧ s.S.rxArmed = true ∧ s.S.rxIdx.val ≠ 1023 ∧ 11 ≤ (received s.S ++ [0x26]).length ∧
    (received s.S ++ [0x26]).drop ((received s.S ++ [0x26]).length - 3) = [0x24, 0x25, 0x26] := by decide +kernel
theorem witness_OverflowDiscardsBeforeStoring :
    let s : State := { start 2 with S := { (start 2).S with rxIdx := 1023 } }
    s.S.initialized = true ∧ s.S.rxArmed = true ∧ s.S.rxIdx.val = 1023 := by decide
theorem witness_InadmissibleEventsAreRefused_disarmed :
    (enterReceive (start 2)).S.initialized = true ∧ (enterReceive (start 2)).S.rxArmed = false := by decide
theorem witness_FewerThanElevenBytesDeliverNothing :
    (start 2).S.initialized = true ∧ (start 2).S.rxArmed = true ∧ (start 2).S.rxIdx.val = 0 ∧
    [0, 0, 0, 0, 0, 0, 0, 0x24, 0x25, (0x26 : Byte)].length < 11 := by decide
/-- Vector A4: an overlapping terminator, found at count 13 only. -/
theorem witness_FedFrameIsDeliveredWhole :
    let f : List Byte := [4, 0, 0, 0, 0, 0, 0, 0, 0x24, 0x25, 0x24, 0x25, 0x26]
    (start 2).S.initialized = true ∧ (start 2).S.rxArmed = true ∧ (start 2).S.rxIdx.val = 0 ∧ 11 ≤ f.length ∧
    f.length ≤ 1023 ∧ f.drop (f.length - 3) = [0x24, 0x25, 0x26] ∧
    (∀ c < f.length, 11 ≤ c → (f.take c).drop (c - 3) ≠ [0x24, 0x25, 0x26]) := by decide
theorem witness_ResetFollowsItsRule : (32 : Byte).toNat ≤ 32 ∧ 32 < (33 : Byte).toNat := by decide

/-! Whole machine. -/

theorem witness_StepKeepsTheInvariant :
    Inv { e1 with input := [.cmd [0x06]] } ∧ gives (step { e1 with input := [.cmd [0x06]] }) (fun _ => true) = true :=
  ⟨e1_inv, by decide⟩
/-- The invariant, and each stop at its boundary. -/
theorem witness_StepsStopOnlyForTheirEventUnderTheInvariant :
    Inv e1 ∧ e1.S.initialized = true ∧
    step { e1 with input := [.cmd [0x09]] } = .refused (.reservedCommand 9) ∧
    step { e1 with input := [.cmd [0x02]] } = .refused .shortCommand ∧
    step { e1 with input := [.reset 33] } = .refused (.resetOperandOutOfRange 33) ∧
    step { e1 with input := [.bufWrite (2 ^ 32) 1] } = .refused (.bufAddressOutOfRange (2 ^ 32)) ∧
    step { atTheTop 3 with input := [.cmd [0x04, 0]] } = .refused (.bufAddressOutOfRange (2 ^ 32)) ∧
    gives (step { e1 with input := [.bufWrite (2 ^ 32 - 1) 1] }) (fun _ => true) = true :=
  ⟨e1_inv, rfl, rfl, rfl, rfl, rfl, rfl, by decide⟩
/-- For the statements about who writes what: an instruction outside the named ones that answers. -/
theorem witness_OperationsKeepParametersInputAndTrace :
    gives (exec .notifyHalt (inState .transmitting false)) (fun t => t.S.userHalt) = true := by decide
theorem witness_LinkFieldsAreWrittenOnlyByTheirOperations :
    gives (exec .notifyReady e1) (fun t => t.S.userReady) = true ∧ (∀ n, Instr.notifyReady ≠ .reset n) := ⟨by decide, by simp⟩
theorem witness_OnlyStagingCommandsWriteBufAndOnlyStagedBytesAreRead :
    gives (exec .clearAll e1) (fun _ => true) = true ∧ (∀ id bytes, Instr.clearAll ≠ .writeStaged id bytes) ∧
    (∀ id, Instr.clearAll ≠ .clearStaged id) := ⟨by decide, by simp, by simp⟩
/-- Other contents with the same staged bytes. -/
theorem witness_OnlyStagedBytesAreRead :
    ∀ j < 32, ∀ k < (slotAt e1.S j).stagedSize,
      Memory.read ((0, 9) :: e1.buf) ((slotAt e1.S j).base + k) = Memory.read e1.buf ((slotAt e1.S j).base + k) := by decide
theorem witness_OnlyRxByteAndResetWriteTheReceiveBuffer :
    gives (exec .sendAll e1) (fun _ => true) = true ∧ (∀ b, Instr.sendAll ≠ .rxByte b) ∧
    (∀ n, Instr.sendAll ≠ .reset n) := ⟨by decide, by simp, by simp⟩
theorem witness_OnlyRegistryOperationsWriteTheRegistry :
    gives (exec .sendAll e1) (fun _ => true) = true ∧ Instr.sendAll ≠ .clearAll ∧ (∀ n, Instr.sendAll ≠ .reset n) :=
  ⟨by decide, by simp, by simp⟩

end Sys2Proof.Tests
end

section
/-! PROOFS. Steps and the instructions their events present (00_scope.md R7, R14): the commands' encodings decode back, a
step is `exec` of what its bytes decode to, and so a step on an instruction's own event is that instruction. -/

namespace Sys2Proof

/-! ### Commands decode back -/

theorem decodeCommand_reserved (cfg : Config) {op : Byte} (rest : List Byte) (h : op.toNat = 0 ∨ 9 ≤ op.toNat) :
    decodeCommand cfg (op :: rest) = .ok (.cmdReserved op, rest) := by
  simp only [decodeCommand]
  split
  case h_9 => rfl
  all_goals omega

/-- The command port's part of the round trip; the bytes after a command are left (30_encoding.md R130, log 8). -/
theorem decodeCommand_encode (cfg : Config) (i : Instr) (rest : List Byte) (hwf : i.wf cfg = true)
    (hp : i.port = .cmd) : decodeCommand cfg (encode cfg i ++ rest) = .ok (i, rest) := by
  cases i with
  | enable id base capacity dataType =>
    exact decodeEnable_operands cfg id base capacity dataType rest (of_decide_eq_true hwf)
  | writeStaged id bytes => exact decodeWriteStaged_operands id bytes rest (of_decide_eq_true hwf)
  | cmdReserved op => exact decodeCommand_reserved cfg rest (of_decide_eq_true hwf)
  | disable | clearStaged | clearAll | sendAll | notifyReady | notifyHalt => rfl
  | _ => cases hp

end Sys2Proof

namespace Sys2Proof.Machine

/-! ### From an event to its instruction -/

theorem withRest_eq_ite (rest : List Byte) (es : List Event) :
    withRest rest es = if rest = [] then es else .cmd rest :: es := by
  cases rest <;> rfl

theorem runBytes_of_decode {p : Port} {bs rest : List Byte} {i : Instr} {s : State} (es : List Event)
    (h : decode s.cfg p bs = .ok (i, rest)) :
    runBytes p bs es s = exec i { s with input := withRest rest es } := by
  simp only [runBytes, fetch, h, andThen_next]

/-- The events of the external instructions: a received byte, a reset, or a command's encoding. -/
theorem eventOf_eq_some {cfg : Config} {i : Instr} {e : Event} (h : eventOf cfg i = some e) :
    (∃ b, i = .rxByte b ∧ e = .rx b) ∨ (∃ n, i = .reset n ∧ e = .reset n) ∨
      i.port = .cmd ∧ e = .cmd (encode cfg i) := by
  unfold eventOf at h
  split at h
  case h_1 b => exact .inl ⟨b, rfl, (Option.some.inj h).symm⟩
  case h_2 n => exact .inr (.inl ⟨n, rfl, (Option.some.inj h).symm⟩)
  case h_3 =>
    split at h
    case isTrue hp => exact .inr (.inr ⟨hp, (Option.some.inj h).symm⟩)
    case isFalse => cases h

/-! ### The statements -/

/-- Settles O7: each port's step is `runBytes`, which runs what the bytes decode to. -/
theorem stepRunsTheDecodedInstruction : Obligations.StepRunsTheDecodedInstruction := by
  unfold Obligations.StepRunsTheDecodedInstruction
  refine fun s es i => ⟨fun bs rest h => ?_, fun b h => ?_, fun n h => ?_⟩
  · rw [← withRest_eq_ite]
    exact runBytes_of_decode (s := { s with input := .cmd bs :: es }) es h
  · exact runBytes_of_decode (s := { s with input := .rx b :: es }) es h
  · exact runBytes_of_decode (s := { s with input := .reset n :: es }) es h

/-- Settles O8, by O7: an external instruction's event carries bytes that decode to it, with none after them. -/
theorem stepOnAnEncodedEventRunsIt : Obligations.StepOnAnEncodedEventRunsIt := by
  unfold Obligations.StepOnAnEncodedEventRunsIt
  intro s es e i hwf he
  obtain ⟨onCmd, onRx, onReset⟩ := stepRunsTheDecodedInstruction s es i
  obtain ⟨b, rfl, rfl⟩ | ⟨n, rfl, rfl⟩ | ⟨hp, rfl⟩ := eventOf_eq_some he
  · exact onRx b rfl
  · exact onReset n rfl
  · have hdec : decode s.cfg .cmd (encode s.cfg i) = .ok (i, []) := by
      simpa only [decode, List.append_nil] using decodeCommand_encode s.cfg i [] hwf hp
    exact onCmd _ [] hdec

end Sys2Proof.Machine
end

section
/-! PROOFS. Which fields of the state an instruction can write (10_state.md R40), said once for every instruction, and
the statements about single groups of fields read off it. -/

namespace Sys2Proof.Machine

/-- What an instruction other than RESET leaves as it was, and which instructions may write the rest. -/
structure Footprint (i : Instr) (s t : State) : Prop where
  cfg : t.cfg = s.cfg
  input : t.input = s.input
  outputs : ∃ os, Outputs s t os
  txBuf : i.port = .frameTx ∨ t.txBuf = s.txBuf ∨ t.txBuf = none
  buf : IsReg i ∨ t.buf = s.buf
  initialized : t.S.initialized = s.S.initialized
  totalChannels : t.S.totalChannels = s.S.totalChannels
  running : t.S.running = s.S.running
  userReady : t.S.userReady = s.S.userReady ∨ (i = .notifyReady ∧ t.S.userReady = true)
  userHalt : t.S.userHalt = true → s.S.userHalt = true ∨ i = .notifyHalt
  receive : (∃ b, i = .rxByte b) ∨ SameReceive s.S t.S
  registry : IsReg i ∨
    (t.S.slots = s.S.slots ∧ t.S.enabledCount = s.S.enabledCount ∧ t.S.reservedSize = s.S.reservedSize)

theorem rxByte_footprint {b : Byte} {s t : State} (h : exec (.rxByte b) s = .next t) : Footprint (.rxByte b) s t := by
  obtain ⟨-, -, hbuf, hcfg, hinput, hout, htx, hsl, hec, hrs, hready, hrun, htot, hinit, -, hend⟩ := rxByte_link h
  refine ⟨hcfg, hinput, hout, .inr htx, .inr hbuf, hinit, htot, hrun, .inl hready, fun hh => .inl ?_,
    .inl ⟨b, rfl⟩, .inr ⟨hsl, hec, hrs⟩⟩
  rcases hend with ⟨-, -, hx, -⟩ | ⟨-, -, -, ⟨hx, -⟩ | ⟨-, hx, -⟩, -⟩
  · exact hx ▸ hh
  · exact hx ▸ hh
  · exact hx

theorem app_footprint {i : Instr} {s t : State} (hi : IsApp i) (h : exec i s = .next t) : Footprint i s t := by
  obtain ⟨c, x, r, os, b, rfl, hb, hr, hx⟩ := app_shape hi h
  refine ⟨rfl, rfl, ⟨os, rfl⟩, .inr hb, .inr rfl, rfl, rfl, rfl, hr, fun hh => ?_, .inr ⟨rfl, rfl, rfl⟩,
    .inr ⟨rfl, rfl, rfl⟩⟩
  rcases hx with ⟨-, hx⟩ | ⟨-, -, -, hi, -⟩ | ⟨-, -, hx, -⟩
  · exact .inl (hx ▸ hh)
  · exact .inr hi
  · cases hx.symm.trans hh

/-- Every instruction that answers is RESET, which makes the Session anew, or keeps to its footprint. -/
theorem exec_reset_or_footprint {i : Instr} {s t : State} (h : exec i s = .next t) :
    (∃ n, i = .reset n ∧ ∃ k, t = setSession (Session.afterReset k) s) ∨ Footprint i s t := by
  rcases exec_class h with ⟨r, rfl, hp⟩ | ⟨T, hT, -, -⟩ | ⟨b, rfl⟩ | ⟨n, rfl⟩ | ⟨-, hreg | happ⟩
  · exact .inr ⟨rfl, rfl, ⟨[], (List.append_nil _).symm⟩, .inl hp, .inr rfl, rfl, rfl, rfl, .inl rfl, .inl,
      .inr ⟨rfl, rfl, rfl⟩, .inr ⟨rfl, rfl, rfl⟩⟩
  · obtain ⟨c, os, b, rfl, hb, -⟩ := handleType_next hT
    exact .inr ⟨rfl, rfl, ⟨os, rfl⟩, .inr hb, .inr rfl, rfl, rfl, rfl, .inl rfl, .inl,
      .inr ⟨rfl, rfl, rfl⟩, .inr ⟨rfl, rfl, rfl⟩⟩
  · exact .inr (rxByte_footprint h)
  · obtain ⟨hn, rfl⟩ := execReset_next h
    exact .inl ⟨n, rfl, _, rfl⟩
  · obtain ⟨sl, ec, rs, e, b, rfl⟩ := reg_shape hreg h
    exact .inr ⟨rfl, rfl, ⟨[.ret e], rfl⟩, .inr (.inl rfl), .inl hreg, rfl, rfl, rfl, .inl rfl, .inl,
      .inr ⟨rfl, rfl, rfl⟩, .inl hreg⟩
  · exact .inr (app_footprint happ h)

theorem exec_footprint {i : Instr} {s t : State} (h : exec i s = .next t) (hr : ∀ n, i ≠ .reset n) :
    Footprint i s t := by
  rcases exec_reset_or_footprint h with ⟨n, hi, -⟩ | hf
  · exact absurd hi (hr n)
  · exact hf

/-! ### The statements -/

/-- Settles O55: RESET makes an initialized Session and touches nothing else, every other instruction keeps to its
footprint. -/
theorem operationsKeepParametersInputAndTrace : Obligations.OperationsKeepParametersInputAndTrace := by
  unfold Obligations.OperationsKeepParametersInputAndTrace
  intro s t i h
  rcases exec_reset_or_footprint h with ⟨-, -, k, rfl⟩ | hf
  · exact ⟨rfl, rfl, ⟨[], (List.append_nil _).symm⟩, fun _ => rfl⟩
  · exact ⟨hf.cfg, hf.input, hf.outputs, hf.initialized.trans⟩

/-- Settles O56, by the link fields of the footprint. -/
theorem linkFieldsAreWrittenOnlyByTheirOperations : Obligations.LinkFieldsAreWrittenOnlyByTheirOperations := by
  unfold Obligations.LinkFieldsAreWrittenOnlyByTheirOperations
  intro s t i h hr
  have hf := exec_footprint h hr
  exact ⟨hf.totalChannels, hf.running, hf.userReady, hf.userHalt⟩

/-- Settles O58, by the receive fields of the footprint. -/
theorem onlyRxByteAndResetWriteTheReceiveBuffer : Obligations.OnlyRxByteAndResetWriteTheReceiveBuffer := by
  unfold Obligations.OnlyRxByteAndResetWriteTheReceiveBuffer
  intro s t i h hb hr
  exact (exec_footprint h hr).receive.resolve_left fun ⟨b, hi⟩ => hb b hi

/-- Settles O59, by the registry fields of the footprint. -/
theorem onlyRegistryOperationsWriteTheRegistry : Obligations.OnlyRegistryOperationsWriteTheRegistry := by
  unfold Obligations.OnlyRegistryOperationsWriteTheRegistry
  intro s t i h hen hdis hwr hcl hall hr
  have hreg : ¬IsReg i := by
    rintro (⟨_, _, _, _, hi⟩ | ⟨_, hi⟩ | ⟨_, _, hi⟩ | ⟨_, hi⟩ | hi)
    · exact hen _ _ _ _ hi
    · exact hdis _ hi
    · exact hwr _ _ hi
    · exact hcl _ hi
    · exact hall hi
  obtain ⟨hsl, hec, hrs⟩ := (exec_footprint h hr).registry.resolve_left hreg
  exact ⟨slotAt_congr hsl, hec, hrs⟩

end Sys2Proof.Machine
end

section
/-! PROOFS. The registry sums (10_state.md R61, R54, R55): every write of one slot, with the counts the operation makes,
keeps them, and so does every instruction. -/

namespace Sys2Proof.Machine

/-- An empty registry with zero sums. -/
theorem registryOk_of_empty {S : Session} (hs : S.slots = Vector.replicate 32 Slot.empty) (hc : S.enabledCount = 0)
    (hr : S.reservedSize = 0) : RegistryOk S := by
  rw [registryOk_iff, hs, hc, hr, Vector.toList_replicate]
  decide

/-- One slot's part is within the sum over all slots. -/
theorem slotAt_le_sum (S : Session) {i : Nat} (hi : i < 32) (g : Slot → Nat) (h0 : g Slot.empty = 0) :
    g (slotAt S i) ≤ (S.slots.toList.map g).sum := by
  have := sums_setSlot (S := S) Slot.empty hi g
  omega

/-- Slot `i` becomes `x`, and the two sums move by what it added and `x` adds. -/
theorem registryOk_setSlot {S : Session} {i ec rs : Nat} {x : Slot} (h : RegistryOk S) (hi : i < 32)
    (hrs : rs + reservedOf (slotAt S i) = S.reservedSize + reservedOf x) (hmax : rs ≤ maxDataSize)
    (hec : ec + countOf (slotAt S i) = S.enabledCount + countOf x) :
    RegistryOk { setSlot S i x with enabledCount := ec, reservedSize := rs } := by
  rw [registryOk_iff] at h ⊢
  obtain ⟨hr, -, hc⟩ := h
  have hsumR := sums_setSlot (S := S) x hi reservedOf
  have hsumC := sums_setSlot (S := S) x hi countOf
  refine ⟨?_, hmax, ?_⟩
  · change rs = ((setSlot S i x).slots.toList.map reservedOf).sum
    omega
  · change ec = ((setSlot S i x).slots.toList.map countOf).sum
    omega

theorem registryOk_installSlot {S : Session} {i base capacity : Nat} {ty : Byte} (h : RegistryOk S) (hi : i < 32)
    (hcap : S.reservedSize + capacity ≤ maxDataSize) : RegistryOk (installSlot S i base capacity ty) := by
  have hle := slotAt_le_sum S hi reservedOf rfl
  rw [← (registryOk_iff.1 h).1] at hle
  have hKept : (if (slotAt S i).enabled then S.reservedSize - (slotAt S i).capacity else S.reservedSize) =
      S.reservedSize - reservedOf (slotAt S i) := by
    unfold reservedOf
    split <;> rfl
  have hCount : (if (slotAt S i).enabled then S.enabledCount else S.enabledCount + 1) + countOf (slotAt S i) =
      S.enabledCount + 1 := by
    unfold countOf
    split <;> rfl
  refine registryOk_setSlot h hi ?_ ?_ hCount
  · change _ = S.reservedSize + capacity
    omega
  · omega

theorem registryOk_removeSlot {S : Session} {i : Nat} (h : RegistryOk S) (hi : i < 32)
    (he : (slotAt S i).enabled = true) : RegistryOk (removeSlot S i) := by
  have hr := slotAt_le_sum S hi reservedOf rfl
  have hc := slotAt_le_sum S hi countOf rfl
  obtain ⟨hsum, hmax, hcount⟩ := registryOk_iff.1 h
  have hRemoved : reservedOf (slotAt S i) = (slotAt S i).capacity := if_pos he
  have hCounted : countOf (slotAt S i) = 1 := if_pos he
  have hEmptyR : reservedOf Slot.empty = 0 := rfl
  have hEmptyC : countOf Slot.empty = 0 := rfl
  apply registryOk_setSlot h hi <;> omega

theorem registryOk_stageSlot {S : Session} {i n : Nat} (h : RegistryOk S) (hi : i < 32) :
    RegistryOk (stageSlot S i n) :=
  registryOk_setSlot (ec := S.enabledCount) (rs := S.reservedSize) h hi rfl (registryOk_iff.1 h).2.1 rfl

/-- A registry operation keeps the sums. -/
theorem reg_keeps_registryOk {i : Instr} {s t : State} (hi : IsReg i) (h : exec i s = .next t)
    (hok : RegistryOk s.S) : RegistryOk t.S := by
  rcases hi with ⟨id, base, cap, ty, rfl⟩ | ⟨id, rfl⟩ | ⟨id, bytes, rfl⟩ | ⟨id, rfl⟩ | rfl
  · obtain ⟨-, ⟨e, -, rfl⟩ | ⟨hr, hcap, rfl⟩⟩ := execEnable_next h
    · exact hok
    · exact registryOk_installSlot hok (inRange_lt hr) hcap
  · obtain ⟨-, ⟨e, -, rfl⟩ | ⟨hu, rfl⟩⟩ := execDisable_next h
    · exact hok
    · obtain ⟨hid, -, hen⟩ := usable_spec hu
      exact registryOk_removeSlot hok hid hen
  · obtain ⟨-, ⟨e, -, rfl⟩ | ⟨hu, -, u, -, rfl⟩⟩ := execWriteStaged_next h
    · exact hok
    · exact registryOk_stageSlot hok (usable_spec hu).1
  · obtain ⟨-, ⟨e, -, rfl⟩ | ⟨hu, u, -, rfl⟩⟩ := execClearStaged_next h
    · exact hok
    · exact registryOk_stageSlot hok (usable_spec hu).1
  · obtain ⟨-, rfl⟩ := execClearAll_next h
    exact registryOk_of_empty rfl rfl rfl

/-- Every instruction keeps the registry sums. -/
theorem exec_keeps_registryOk {i : Instr} {s t : State} (h : exec i s = .next t) (hok : RegistryOk s.S) :
    RegistryOk t.S := by
  rcases exec_reset_or_footprint h with ⟨-, -, k, rfl⟩ | hf
  · exact registryOk_of_empty rfl rfl rfl
  · rcases hf.registry with hreg | ⟨hsl, hec, hrs⟩
    · exact reg_keeps_registryOk hreg h hok
    · exact registryOk_congr hsl hec hrs hok

/-- Settles O19, by induction on the instructions. -/
theorem registrySumsHoldAlongEveryRun : Obligations.RegistrySumsHoldAlongEveryRun := by
  unfold Obligations.RegistrySumsHoldAlongEveryRun
  intro is
  induction is with
  | nil =>
    intro s t hok h
    cases h
    exact hok
  | cons i is ih =>
    intro s t hok h
    obtain ⟨u, hu, h⟩ := andThen_eq_next.1 h
    exact ih u t (exec_keeps_registryOk hu hok) h

end Sys2Proof.Machine
end

section
/-! PROOFS. The invariant of every step boundary (10_state.md R61 to R64, R46, R58, R59; 20_memory.md R83, R84): each
part is kept by the instructions a step can run, and a step runs only those. -/

namespace Sys2Proof.Machine

/-! ### The slots (R62, R53, R52, R86) -/

/-- What the invariant asks of the slot at `i` with `total` channels. -/
structure SlotOk (cfg : Config) (total i : Nat) (c : Slot) : Prop where
  empty : c.enabled = false → c = Slot.empty
  placed : c.enabled = true → i < total ∧ c.base < 2 ^ cfg.addrW
  staged_le : c.stagedSize ≤ c.capacity
  readable : ∀ k < c.stagedSize, c.base + k < 2 ^ cfg.addrW

/-- The slots of the invariant, with their staged bytes inside `BUF`. -/
def SlotTableOk (s : State) : Prop := ∀ i < 32, SlotOk s.cfg s.S.totalChannels.val i (slotAt s.S i)

theorem slotTableOk_iff {s : State} : SlotTableOk s ↔ SlotsOk s.cfg s.S ∧ StagedReadable s := by
  constructor
  · intro h
    exact ⟨fun i hi => ⟨(h i hi).empty, (h i hi).placed, (h i hi).staged_le⟩, fun i hi => (h i hi).readable⟩
  · rintro ⟨hs, hr⟩ i hi
    obtain ⟨hempty, hplaced, hle⟩ := hs i hi
    exact ⟨hempty, hplaced, hle, hr i hi⟩

theorem slotOk_empty (cfg : Config) (total i : Nat) : SlotOk cfg total i Slot.empty :=
  ⟨fun _ => rfl, fun h => (nomatch h), Nat.le_refl 0, fun _ hk => absurd hk (Nat.not_lt_zero _)⟩

/-- An enabled slot stays in order with another number of staged bytes, all inside its capacity and inside `BUF`. -/
theorem SlotOk.stage {cfg : Config} {total i n : Nat} {c : Slot} (h : SlotOk cfg total i c) (he : c.enabled = true)
    (hle : n ≤ c.capacity) (hr : ∀ k < n, c.base + k < 2 ^ cfg.addrW) :
    SlotOk cfg total i { c with stagedSize := n } :=
  ⟨fun hd => (nomatch he.symm.trans hd), h.placed, hle, hr⟩

theorem slotTableOk_of_empty {s : State} (h : s.S.slots = Vector.replicate 32 Slot.empty) : SlotTableOk s := by
  intro i _
  rw [slotAt_replicate h]
  exact slotOk_empty _ _ _

theorem slotTableOk_congr {s t : State} (hs : t.S.slots = s.S.slots) (hn : t.S.totalChannels = s.S.totalChannels)
    (hc : t.cfg = s.cfg) (h : SlotTableOk s) : SlotTableOk t := by
  intro i hi
  rw [hc, hn, slotAt_congr hs]
  exact h i hi

/-- One slot is written with a slot in order. -/
theorem slotTableOk_setSlot {s t : State} {j : Nat} {x : Slot} (hs : t.S.slots = (setSlot s.S j x).slots)
    (hn : t.S.totalChannels = s.S.totalChannels) (hc : t.cfg = s.cfg) (hj : j < 32)
    (hx : SlotOk s.cfg s.S.totalChannels.val j x) (h : SlotTableOk s) : SlotTableOk t := by
  intro i hi
  rw [hc, hn, slotAt_congr hs]
  by_cases hij : i = j
  · subst hij
    rw [slotAt_setSlot_self x hj]
    exact hx
  · rw [slotAt_setSlot_ne x hij]
    exact h i hi

/-- A well-formed registry operation keeps the slots: ENABLE's base is an address, and what WRITE_STAGED staged it has
written, so it lies inside `BUF`. -/
theorem reg_keeps_slotTableOk {i : Instr} {s t : State} (hi : IsReg i) (hwf : i.wf s.cfg = true)
    (h : exec i s = .next t) (hok : SlotTableOk s) : SlotTableOk t := by
  rcases hi with ⟨id, base, cap, ty, rfl⟩ | ⟨id, rfl⟩ | ⟨id, bytes, rfl⟩ | ⟨id, rfl⟩ | rfl
  · obtain ⟨-, ⟨e, -, rfl⟩ | ⟨hr, -, rfl⟩⟩ := execEnable_next h
    · exact hok
    · have hnew : SlotOk s.cfg s.S.totalChannels.val id.toNat ⟨true, ty, cap.toNat, 0, base⟩ :=
        ⟨fun hd => (nomatch hd), fun _ => ⟨of_decide_eq_true hr, of_decide_eq_true hwf⟩, Nat.zero_le _,
          fun _ hk => absurd hk (Nat.not_lt_zero _)⟩
      exact slotTableOk_setSlot rfl rfl rfl (inRange_lt hr) hnew hok
  · obtain ⟨-, ⟨e, -, rfl⟩ | ⟨hu, rfl⟩⟩ := execDisable_next h
    · exact hok
    · exact slotTableOk_setSlot rfl rfl rfl (usable_spec hu).1 (slotOk_empty _ _ _) hok
  · obtain ⟨-, ⟨e, -, rfl⟩ | ⟨hu, hle, u, hw, rfl⟩⟩ := execWriteStaged_next h
    · exact hok
    · obtain ⟨hid, -, hen⟩ := usable_spec hu
      obtain ⟨hkeep, -, -, hin, -, -⟩ := writeBytes_spec hw
      have hcfg : u.cfg = s.cfg := by rw [hkeep]
      exact slotTableOk_setSlot rfl rfl hcfg hid ((hok _ hid).stage hen hle hin) hok
  · obtain ⟨-, ⟨e, -, rfl⟩ | ⟨hu, u, hw, rfl⟩⟩ := execClearStaged_next h
    · exact hok
    · obtain ⟨hid, -, hen⟩ := usable_spec hu
      have hcfg : u.cfg = s.cfg := by rw [(writeBytes_spec hw).1]
      exact slotTableOk_setSlot rfl rfl hcfg hid
        ((hok _ hid).stage hen (Nat.zero_le _) fun _ hk => absurd hk (Nat.not_lt_zero _)) hok
  · obtain ⟨-, rfl⟩ := execClearAll_next h
    exact slotTableOk_of_empty rfl

/-! ### `BUF` (20_memory.md R83, R84) -/

theorem writeBytes_keeps_bufOk {bs : List Byte} {a : Nat} {s t : State} (h : writeBytes a bs s = .next t)
    (hok : BufOk s) : BufOk t := by
  obtain ⟨hkeep, -, -, -, hwf, hin⟩ := writeBytes_spec h
  have hcfg : t.cfg = s.cfg := by rw [hkeep]
  exact ⟨hwf hok.1, hcfg ▸ hin hok.2⟩

theorem reg_keeps_bufOk {i : Instr} {s t : State} (hi : IsReg i) (h : exec i s = .next t) (hok : BufOk s) :
    BufOk t := by
  rcases hi with ⟨id, base, cap, ty, rfl⟩ | ⟨id, rfl⟩ | ⟨id, bytes, rfl⟩ | ⟨id, rfl⟩ | rfl
  · obtain ⟨-, ⟨e, -, rfl⟩ | ⟨-, -, rfl⟩⟩ := execEnable_next h <;> exact hok
  · obtain ⟨-, ⟨e, -, rfl⟩ | ⟨-, rfl⟩⟩ := execDisable_next h <;> exact hok
  · obtain ⟨-, ⟨e, -, rfl⟩ | ⟨-, -, u, hw, rfl⟩⟩ := execWriteStaged_next h
    · exact hok
    · exact writeBytes_keeps_bufOk (t := u) hw hok
  · obtain ⟨-, ⟨e, -, rfl⟩ | ⟨-, u, hw, rfl⟩⟩ := execClearStaged_next h
    · exact hok
    · exact writeBytes_keeps_bufOk (t := u) hw hok
  · obtain ⟨-, rfl⟩ := execClearAll_next h
    exact hok

theorem exec_keeps_bufOk {i : Instr} {s t : State} (h : exec i s = .next t) (hok : BufOk s) : BufOk t := by
  rcases exec_reset_or_footprint h with ⟨-, -, k, rfl⟩ | hf
  · exact hok
  · rcases hf.buf with hreg | hbuf
    · exact reg_keeps_bufOk hreg h hok
    · unfold BufOk
      rw [hbuf, hf.cfg]
      exact hok

/-! ### The latched Halt (R63) -/

theorem haltOk_of_clear (cfg : Config) {S : Session} (h : S.userHalt = false) : HaltOk cfg S :=
  ⟨fun hh => (nomatch h.symm.trans hh), fun _ => h⟩

theorem haltOk_congr {cfg : Config} {S T : Session} (hc : T.conn = S.conn) (hh : T.userHalt = S.userHalt)
    (hok : HaltOk cfg S) : HaltOk cfg T := by
  unfold HaltOk
  rw [hc, hh]
  exact hok

theorem rxByte_keeps_haltOk {b : Byte} {s t : State} (h : exec (.rxByte b) s = .next t)
    (hok : HaltOk s.cfg s.S) : HaltOk s.cfg t.S := by
  obtain ⟨-, -, -, -, -, -, -, -, -, -, -, -, -, -, -, hend⟩ := rxByte_link h
  rcases hend with ⟨-, hconn, hx, -⟩ | ⟨-, -, -, ⟨hx, hnot, -⟩ | ⟨-, -, hx, -⟩, -⟩
  · exact haltOk_congr hconn hx hok
  · have hclear : s.S.userHalt = false := Bool.eq_false_iff.2 fun hh => hnot ⟨hok.1 hh, hh⟩
    exact haltOk_of_clear _ (hx.trans hclear)
  · exact haltOk_of_clear _ hx

/-- A Halt is latched in Transmitting under NEXT_EVENT only, and no application operation leaves Transmitting with one. -/
theorem app_keeps_haltOk {i : Instr} {s t : State} (hi : IsApp i) (h : exec i s = .next t)
    (hok : HaltOk s.cfg s.S) : HaltOk s.cfg t.S := by
  obtain ⟨c, x, r, os, b, rfl, -, -, ⟨rfl, rfl⟩ | ⟨-, rfl, -, -, hnext⟩ | ⟨-, -, rfl, -⟩⟩ := app_shape hi h
  · exact hok
  · exact ⟨fun _ => rfl, fun himm => nomatch hnext.symm.trans himm⟩
  · exact haltOk_of_clear _ rfl

/-- The instructions of the external ports: those a step can run (00_scope.md R8). -/
def External (i : Instr) : Prop := i.port ≠ .frameRx ∧ i.port ≠ .frameTx

/-- A row of a received frame by itself has no halt service (log 12), so it can leave Transmitting with a Halt latched;
an external instruction cannot. -/
theorem exec_keeps_haltOk {i : Instr} {s t : State} (hext : External i) (h : exec i s = .next t)
    (hr : ∀ n, i ≠ .reset n) (hok : HaltOk s.cfg s.S) : HaltOk s.cfg t.S := by
  rcases exec_class h with ⟨-, -, hp⟩ | ⟨T, -, -, hp⟩ | ⟨b, rfl⟩ | ⟨n, hi⟩ | ⟨-, hreg | happ⟩
  · exact absurd hp hext.2
  · exact absurd hp hext.1
  · exact rxByte_keeps_haltOk h hok
  · exact absurd hi (hr n)
  · obtain ⟨sl, ec, rs, e, b, rfl⟩ := reg_shape hreg h
    exact hok
  · exact app_keeps_haltOk happ h hok

/-! ### The Receive Assembler (R64, R58) -/

theorem terminated_congr {S T : Session} (hb : T.rxBuf = S.rxBuf) (hx : T.rxIdx = S.rxIdx) :
    terminated T = terminated S := by
  simp only [terminated, received, hb, hx]

theorem receiveOk_congr {S T : Session} (h : SameReceive S T) (hok : ReceiveOk S) : ReceiveOk T := by
  obtain ⟨hb, hx, ha⟩ := h
  unfold ReceiveOk
  rw [terminated_congr hb hx, hb, hx, ha]
  exact hok

/-- An empty, armed receive buffer. -/
theorem receiveOk_of_cleared {S : Session} (hb : S.rxBuf = Vector.replicate 1024 0) (hx : S.rxIdx = 0)
    (ha : S.rxArmed = true) : ReceiveOk S := by
  have hzeros := zerosAbove_clearRx S
  refine ⟨?_, ?_, ha⟩
  · rw [hb, hx]
    exact hzeros
  · rw [terminated_congr (S := clearRx S) hb hx]
    rfl

/-- RX_BYTE leaves the byte accumulated without a terminator, or the buffer consumed. -/
theorem rxByte_keeps_receiveOk {b : Byte} {s t : State} (h : exec (.rxByte b) s = .next t)
    (hok : ReceiveOk s.S) : ReceiveOk t.S := by
  obtain ⟨-, -, -, -, -, -, -, -, -, -, -, -, -, -, harmed, hend⟩ := rxByte_link h
  rcases hend with ⟨hterm, -, -, hb, hx⟩ | ⟨-, hb, hx, -⟩
  · have hzeros : ZerosAbove (accumulated b s).S := zerosAbove_accumulate (S := (enterReceive s).S) b hok.1
    refine ⟨?_, (terminated_congr hb hx).trans hterm, harmed⟩
    rw [hb, hx]
    exact hzeros
  · exact receiveOk_of_cleared hb hx harmed

/-! ### The Session as a whole -/

/-- The part of the invariant that holds after the first RESET. -/
structure SessionOk (s : State) : Prop where
  registry : RegistryOk s.S
  slots : SlotTableOk s
  halt : HaltOk s.cfg s.S
  receive : ReceiveOk s.S
  running : s.S.running = false

theorem inv_iff {s : State} :
    Inv s ↔ BufOk s ∧ s.txBuf = none ∧ (s.S.initialized = true → SessionOk s) := by
  constructor
  · rintro ⟨hbuf, htx, hS⟩
    refine ⟨hbuf, htx, fun hi => ?_⟩
    obtain ⟨hreg, hsl, hhalt, hrx, hread, hrun⟩ := hS hi
    exact ⟨hreg, slotTableOk_iff.2 ⟨hsl, hread⟩, hhalt, hrx, hrun⟩
  · rintro ⟨hbuf, htx, hS⟩
    refine ⟨hbuf, htx, fun hi => ?_⟩
    obtain ⟨hreg, hsl, hhalt, hrx, hrun⟩ := hS hi
    obtain ⟨hslots, hread⟩ := slotTableOk_iff.1 hsl
    exact ⟨hreg, hslots, hhalt, hrx, hread, hrun⟩

theorem sessionOk_afterReset (n : Fin 33) (s : State) : SessionOk (setSession (Session.afterReset n) s) where
  registry := registryOk_of_empty rfl rfl rfl
  slots := slotTableOk_of_empty rfl
  halt := haltOk_of_clear _ rfl
  receive := receiveOk_of_cleared rfl rfl rfl
  running := rfl

theorem exec_keeps_sessionOk {i : Instr} {s t : State} (hwf : i.wf s.cfg = true) (hext : External i)
    (hr : ∀ n, i ≠ .reset n) (h : exec i s = .next t) (hok : SessionOk s) : SessionOk t := by
  have hf := exec_footprint h hr
  refine ⟨exec_keeps_registryOk h hok.registry, ?_, ?_, ?_, hf.running.trans hok.running⟩
  · rcases hf.registry with hreg | ⟨hsl, -, -⟩
    · exact reg_keeps_slotTableOk hreg hwf h hok.slots
    · exact slotTableOk_congr hsl hf.totalChannels hf.cfg hok.slots
  · rw [hf.cfg]
    exact exec_keeps_haltOk hext h hr hok.halt
  · rcases hf.receive with ⟨b, rfl⟩ | hsame
    · exact rxByte_keeps_receiveOk h hok.receive
    · exact receiveOk_congr hsame hok.receive

/-- Every well-formed external instruction keeps the invariant. -/
theorem exec_keeps_inv {i : Instr} {s t : State} (hwf : i.wf s.cfg = true) (hext : External i)
    (h : exec i s = .next t) (hinv : Inv s) : Inv t := by
  rw [inv_iff] at hinv ⊢
  obtain ⟨hbuf, htx, hS⟩ := hinv
  refine ⟨exec_keeps_bufOk h hbuf, ?_⟩
  by_cases hr : ∃ n, i = .reset n
  · obtain ⟨n, rfl⟩ := hr
    obtain ⟨hn, rfl⟩ := execReset_next h
    exact ⟨htx, fun _ => sessionOk_afterReset _ s⟩
  · have hr := not_exists.1 hr
    have hf := exec_footprint h hr
    refine ⟨?_, fun hi => exec_keeps_sessionOk hwf hext hr h (hS (hf.initialized ▸ hi))⟩
    rcases hf.txBuf with hp | hsame | hnone
    · exact absurd hp hext.2
    · exact hsame.trans htx
    · exact hnone

/-! ### The step -/

/-- A decoded command belongs to the command port, and its operands are in range (30_encoding.md R131, R132). -/
theorem decodeCommand_ok {cfg : Config} {bs rest : List Byte} {i : Instr}
    (h : decodeCommand cfg bs = .ok (i, rest)) : i.wf cfg = true ∧ i.port = .cmd := by
  have ofId : ∀ {mk : Byte → Instr} {l : List Byte}, decodeId mk l = .ok (i, rest) → ∃ id, i = mk id := by
    intro mk l hd
    cases l with
    | nil => cases hd
    | cons id l => cases hd; exact ⟨id, rfl⟩
  cases bs with
  | nil => cases h
  | cons op bs =>
    simp only [decodeCommand] at h
    split at h
    case h_1 =>
      obtain ⟨id, base, cap, ty, rfl, hb, -⟩ := decodeEnable_ok h
      exact ⟨decide_eq_true hb, rfl⟩
    case h_2 => obtain ⟨id, rfl⟩ := ofId h; exact ⟨rfl, rfl⟩
    case h_3 =>
      obtain ⟨id, bytes, rfl, hl, -⟩ := decodeWriteStaged_ok h
      exact ⟨decide_eq_true hl, rfl⟩
    case h_4 => obtain ⟨id, rfl⟩ := ofId h; exact ⟨rfl, rfl⟩
    case h_9 =>
      have hop : op.toNat = 0 ∨ 9 ≤ op.toNat := by
        simp only [imp_false] at *
        omega
      cases h
      exact ⟨decide_eq_true hop, rfl⟩
    all_goals
      cases h
      exact ⟨rfl, rfl⟩

/-- Everything a step can be: idle, a host write of `BUF`, or a well-formed external instruction with its event taken. -/
theorem step_cases {s t : State} (h : step s = .next t) :
    t = s ∨ (∃ a v es, memWrite a v { s with input := es } = .next t) ∨
    ∃ i es, i.wf s.cfg = true ∧ External i ∧ exec i { s with input := es } = .next t := by
  unfold step at h
  split at h
  · cases h
    exact .inl rfl
  · obtain ⟨⟨i, es⟩, hfetch, h⟩ := andThen_eq_next.1 h
    unfold fetch at hfetch
    split at hfetch
    · rename_i hd
      cases hfetch
      obtain ⟨hwf, hp⟩ := decodeCommand_ok hd
      exact .inr (.inr ⟨i, _, hwf, by simp [External, hp], h⟩)
    · cases hfetch
  · rename_i b es _
    exact .inr (.inr ⟨.rxByte b, es, rfl, by simp [External, Instr.port], h⟩)
  · rename_i n es _
    exact .inr (.inr ⟨.reset n, es, rfl, by simp [External, Instr.port], h⟩)
  · exact .inr (.inl ⟨_, _, _, h⟩)

theorem memWrite_keeps_inv {a : Nat} {v : Byte} {s t : State} (h : memWrite a v s = .next t) (hinv : Inv s) :
    Inv t := by
  obtain ⟨ha, rfl⟩ := memWrite_eq_next.1 h
  obtain ⟨⟨hwf, hin⟩, htx, hS⟩ := hinv
  exact ⟨⟨write_wf a v hwf, write_within v hin ha⟩, htx, hS⟩

/-- Settles O53: an idle step changes nothing, a host write keeps `BUF` canonical and inside its space, and every
well-formed external instruction keeps the invariant, which does not speak of the events to come. -/
theorem stepKeepsTheInvariant : Obligations.StepKeepsTheInvariant := by
  unfold Obligations.StepKeepsTheInvariant
  intro s t hinv h
  have hinput : ∀ es, Inv { s with input := es } := fun _ => hinv
  rcases step_cases h with rfl | ⟨a, v, es, hw⟩ | ⟨i, es, hwf, hext, he⟩
  · exact hinv
  · exact memWrite_keeps_inv hw (hinput es)
  · exact exec_keeps_inv (s := { s with input := es }) hwf hext he (hinput es)

end Sys2Proof.Machine
end

section
/-! PROOFS. What `BUF` holds (20_memory.md R83, R84, R86): under the invariant SERIALIZE and RX_BYTE always answer; only
the staging commands write `BUF`; and an instruction run with other contents of `BUF`, in which the staged bytes are the
same, does the same. -/

namespace Sys2Proof.Machine

/-! ### Reception answers -/

/-- RX_BYTE of an armed engine stops only where the delivered frame's answer needs a byte outside `BUF`. -/
theorem rxByte_answers {b : Byte} {s : State} (hi : s.S.initialized = true) (ha : s.S.rxArmed = true)
    (h : StagedReadable s) : ∃ t, exec (.rxByte b) s = .next t := by
  change ∃ t, execRxByte b s = .next t
  rw [execRxByte_eq hi ha]
  obtain ⟨-, -, -, hslots, -, -, -, ⟨-, hcfg, -⟩, -⟩ := accumulated_spec b s
  by_cases ht : terminated (accumulated b s).S = true
  · obtain ⟨u, hu⟩ := frameReceived_answers (received (accumulated b s).S) ((terminated_eq _).1 ht).1
      (stagedReadable_congr hslots hcfg h)
    rw [if_pos ht, deliver, hu]
    exact ⟨_, rfl⟩
  · rw [if_neg ht]
    exact ⟨_, rfl⟩

/-- Settles O28: the invariant keeps every staged byte inside `BUF`, and reception armed. -/
theorem serializeAndReceptionAnswerUnderTheInvariant : Obligations.SerializeAndReceptionAnswerUnderTheInvariant := by
  unfold Obligations.SerializeAndReceptionAnswerUnderTheInvariant
  rintro s ⟨-, -, hS⟩ hi
  obtain ⟨-, -, -, ⟨-, -, harmed⟩, hread, -⟩ := hS hi
  exact ⟨fun type => serialize_answers type hread, fun b => rxByte_answers hi harmed hread⟩

/-! ### Who writes `BUF` -/

/-- WRITE_STAGED and CLEAR_STAGED. -/
def IsStaging (i : Instr) : Prop := (∃ id bytes, i = .writeStaged id bytes) ∨ ∃ id, i = .clearStaged id

theorem reg_buf {i : Instr} {s t : State} (hi : IsReg i) (hns : ¬IsStaging i) (h : exec i s = .next t) :
    t.buf = s.buf := by
  rcases hi with ⟨id, base, cap, ty, rfl⟩ | ⟨id, rfl⟩ | hw | hc | rfl
  · obtain ⟨-, ⟨e, -, rfl⟩ | ⟨-, -, rfl⟩⟩ := execEnable_next h <;> rfl
  · obtain ⟨-, ⟨e, -, rfl⟩ | ⟨-, rfl⟩⟩ := execDisable_next h <;> rfl
  · exact absurd (.inl hw) hns
  · exact absurd (.inr hc) hns
  · obtain ⟨-, rfl⟩ := execClearAll_next h
    rfl

theorem exec_buf_of_not_staging {i : Instr} {s t : State} (hns : ¬IsStaging i) (h : exec i s = .next t) :
    t.buf = s.buf := by
  rcases exec_reset_or_footprint h with ⟨-, -, k, rfl⟩ | hf
  · rfl
  · exact hf.buf.elim (fun hreg => reg_buf hreg hns h) id

/-! ### Other contents of `BUF` -/

/-- The state with other contents of `BUF`. -/
def withBuf (m : Memory) (s : State) : State := { s with buf := m }

@[simp] theorem withBuf_S (m : Memory) (s : State) : (withBuf m s).S = s.S := rfl
@[simp] theorem withBuf_buf (m : Memory) (s : State) : (withBuf m s).buf = m := rfl
@[simp] theorem withBuf_cfg (m : Memory) (s : State) : (withBuf m s).cfg = s.cfg := rfl

/-- The same outcome, with other contents of `BUF` in the next state. -/
def resultWithBuf (m : Memory) (r : Result State) : Result State := andThen r fun t => .next (withBuf m t)

/-- The staged bytes of `s` are the same in `m`. -/
def StagedSame (m : Memory) (s : State) : Prop :=
  ∀ j < 32, ∀ k < (slotAt s.S j).stagedSize,
    Memory.read m ((slotAt s.S j).base + k) = Memory.read s.buf ((slotAt s.S j).base + k)

theorem stagedSame_congr {m : Memory} {s t : State} (hs : t.S.slots = s.S.slots) (hb : t.buf = s.buf)
    (h : StagedSame m s) : StagedSame m t := by
  intro j hj
  rw [slotAt_congr hs, hb]
  exact h j hj

/-- Two operations in sequence: each does the same with the other contents. -/
theorem andThen_withBuf {m : Memory} {r : Result State} {k : State → Result State}
    (hk : ∀ u, r = .next u → k (withBuf m u) = resultWithBuf m (k u)) :
    andThen (resultWithBuf m r) k = resultWithBuf m (andThen r k) := by
  cases r with
  | next u => exact hk u rfl
  | fault f => rfl
  | refused e => rfl

/-- A choice between two operations, each of which does the same with the other contents. -/
theorem ite_withBuf {m : Memory} {c : Prop} [Decidable c] {x x' y y' : Result State} (hx : x' = resultWithBuf m x)
    (hy : y' = resultWithBuf m y) : (if c then x' else y') = resultWithBuf m (if c then x else y) := by
  split
  · exact hx
  · exact hy

theorem admitted_withBuf {m : Memory} {s : State} {k : State → Result State}
    (hk : k (withBuf m s) = resultWithBuf m (k s)) :
    admitted (withBuf m s) k = resultWithBuf m (admitted s k) :=
  ite_withBuf hk rfl

/-! ### The codec reads staged bytes only (R86) -/

theorem readBytes_withBuf {m : Memory} {s : State} {a n : Nat}
    (h : ∀ k < n, Memory.read m (a + k) = Memory.read s.buf (a + k)) :
    readBytes (withBuf m s) a n = readBytes s a n := by
  induction n generalizing a with
  | zero => rfl
  | succ n ih =>
    have hfirst : memRead (withBuf m s) a = memRead s a := by
      simp only [memRead, withBuf_cfg, withBuf_buf, show Memory.read m a = Memory.read s.buf a from h 0 (by omega)]
    have hrest : readBytes (withBuf m s) (a + 1) n = readBytes s (a + 1) n := ih fun k hk => by
      rw [show a + 1 + k = a + (k + 1) by omega]
      exact h (k + 1) (by omega)
    rw [readBytes, readBytes, hfirst, hrest]

theorem dataRecords_withBuf {m : Memory} {s : State} (h : StagedSame m s) {l : List Nat} (hl : ∀ i ∈ l, i < 32) :
    dataRecords (withBuf m s) l = dataRecords s l := by
  induction l with
  | nil => rfl
  | cons i l ih =>
    have hrecord : dataRecord (withBuf m s) i = dataRecord s i := by
      simp only [dataRecord, withBuf_S, readBytes_withBuf (h i (hl i List.mem_cons_self))]
    rw [dataRecords, dataRecords, hrecord, ih fun j hj => hl j (List.mem_cons_of_mem _ hj)]

theorem serialize_withBuf {m : Memory} {s : State} (h : StagedSame m s) (type : Byte) :
    serialize (withBuf m s) type = serialize s type := by
  have hdata : ∀ T, dataBytes (withBuf m s) T = dataBytes s T := by
    intro T
    cases T
    case data => simp only [dataBytes, withBuf_S, dataRecords_withBuf h fun i hi => (mem_stagedIds.1 hi).1]
    all_goals rfl
  simp only [serialize, serializeType, withBuf_S, withBuf_cfg, hdata]

theorem serializeInto_withBuf {m : Memory} {s : State} (h : StagedSame m s) (type : Byte) :
    serializeInto type (withBuf m s) = resultWithBuf m (serializeInto type s) := by
  rw [serializeInto, serializeInto, serialize_withBuf h]
  cases serialize s type <;> rfl

/-! ### The state machine -/

theorem handOver_withBuf (m : Memory) (s : State) : handOver (withBuf m s) = withBuf m (handOver s) := by
  obtain ⟨S, buf, txBuf, input, trace, cfg⟩ := s
  rcases txBuf with _ | _ | _ <;> rfl

theorem transmit_withBuf {m : Memory} {s : State} (h : StagedSame m s) (T : FrameType) :
    transmit T (withBuf m s) = resultWithBuf m (transmit T s) := by
  rw [transmit, transmit, serializeInto_withBuf h]
  exact andThen_withBuf fun u _ => by rw [handOver_withBuf]; rfl

theorem serviceHalt_withBuf (m : Memory) (s : State) :
    serviceHalt (withBuf m s) = resultWithBuf m (serviceHalt s) := by
  rcases serviceHalt_cases s with ⟨hc, hh, hs⟩ | ⟨hn, hs⟩ <;> rw [hs]
  · exact serviceHalt_due hc hh
  · exact serviceHalt_idle hn

theorem latchHalt_withBuf (m : Memory) (s : State) : latchHalt (withBuf m s) = resultWithBuf m (latchHalt s) := by
  unfold latchHalt
  rw [withBuf_S, withBuf_cfg]
  split
  · cases s.cfg.haltService with
    | nextEvent => rfl
    | immediate => exact serviceHalt_withBuf m (setUserHalt true s)
  · rfl

theorem handleType_withBuf {m : Memory} {s : State} (h : StagedSame m s) (T : Option FrameType) :
    handleType T (withBuf m s) = resultWithBuf m (handleType T s) := by
  cases T with
  | none => rfl
  | some T =>
    cases T with
    | syncResp | data => rfl
    | sync =>
      simp only [handleType, onSync, withBuf_S]
      cases s.S.conn with
      | idle => exact transmit_withBuf (s := setConn .sync s) h _
      | _ => rfl
    | ack | request | stop =>
      simp only [handleType, onAck, onRequest, onStop, withBuf_S]
      cases s.S.conn <;> rfl
    | drop =>
      simp only [handleType, onDrop, withBuf_S]
      cases s.S.conn with
      | transmitting => exact transmit_withBuf (s := setConn .idle (emit (.sig .stop) s)) h _
      | _ => exact transmit_withBuf (s := setConn .idle s) h _

/-- The halt service leaves the registry and `BUF`, so the staged bytes are still the same when the row runs. -/
theorem frameReceived_withBuf {m : Memory} {s : State} (h : StagedSame m s) {f : List Byte} (hl : 11 ≤ f.length) :
    frameReceived f (withBuf m s) = resultWithBuf m (frameReceived f s) := by
  rw [frameReceived_eq hl, frameReceived_eq hl, serviceHalt_withBuf]
  refine andThen_withBuf fun u hu => ?_
  have hsame : StagedSame m u := by
    obtain ⟨c, x, os, b, rfl, -⟩ := serviceHalt_link hu
    exact h
  exact handleType_withBuf hsame _

theorem deliver_withBuf {m : Memory} {s : State} (h : StagedSame m s) (ht : terminated s.S = true) :
    deliver (withBuf m s) = resultWithBuf m (deliver s) := by
  rw [deliver, deliver, withBuf_S, frameReceived_withBuf h ((terminated_eq _).1 ht).1]
  exact andThen_withBuf fun _ _ => rfl

theorem execRxByte_withBuf {m : Memory} {s : State} (h : StagedSame m s) (b : Byte) :
    execRxByte b (withBuf m s) = resultWithBuf m (execRxByte b s) := by
  refine admitted_withBuf (ite_withBuf rfl ?_)
  have hend : (if terminated (accumulated b s).S then deliver (withBuf m (accumulated b s))
      else .next (withBuf m (accumulated b s))) = resultWithBuf m
        (if terminated (accumulated b s).S then deliver (accumulated b s) else .next (accumulated b s)) := by
    obtain ⟨-, -, -, hslots, -, -, hbuf, -, -⟩ := accumulated_spec b s
    split
    · rename_i ht
      exact deliver_withBuf (stagedSame_congr hslots hbuf h) ht
    · rfl
  exact (congrArg (andThen · fun u => .next (leaveReceive u)) hend).trans (andThen_withBuf fun _ _ => rfl)

theorem execSendAll_withBuf {m : Memory} {s : State} (h : StagedSame m s) :
    execSendAll (withBuf m s) = resultWithBuf m (execSendAll s) := by
  refine admitted_withBuf ?_
  rw [serializeInto_withBuf h]
  refine andThen_withBuf fun u hu => ?_
  obtain ⟨r, -, rfl⟩ := serializeInto_eq_next.1 hu
  cases r <;> rfl

theorem execNotifyReady_withBuf (m : Memory) (s : State) :
    execNotifyReady (withBuf m s) = resultWithBuf m (execNotifyReady s) := by
  refine admitted_withBuf ?_
  rw [serviceHalt_withBuf]
  exact andThen_withBuf fun _ _ => rfl

theorem execNotifyHalt_withBuf (m : Memory) (s : State) :
    execNotifyHalt (withBuf m s) = resultWithBuf m (execNotifyHalt s) := by
  refine admitted_withBuf ?_
  rw [serviceHalt_withBuf]
  refine andThen_withBuf fun u _ => ?_
  rw [latchHalt_withBuf]
  exact andThen_withBuf fun _ _ => rfl

/-! ### The registry and RESET -/

theorem execEnable_withBuf (m : Memory) (s : State) (id : Byte) (base : Nat) (capacity : BitVec 32) (dataType : Byte) :
    execEnable id base capacity dataType (withBuf m s) =
      resultWithBuf m (execEnable id base capacity dataType s) := by
  refine admitted_withBuf ?_
  exact ite_withBuf rfl (ite_withBuf rfl rfl)

theorem execDisable_withBuf (m : Memory) (s : State) (id : Byte) :
    execDisable id (withBuf m s) = resultWithBuf m (execDisable id s) := by
  refine admitted_withBuf ?_
  exact ite_withBuf rfl rfl

theorem execClearAll_withBuf (m : Memory) (s : State) :
    execClearAll (withBuf m s) = resultWithBuf m (execClearAll s) :=
  admitted_withBuf (by rfl)

theorem execReset_withBuf (m : Memory) (s : State) (n : Byte) :
    execReset n (withBuf m s) = resultWithBuf m (execReset n s) := by
  unfold execReset
  split <;> rfl

/-- An instruction that does not write `BUF` does the same with the other contents. -/
theorem exec_withBuf {m : Memory} {s : State} {i : Instr} (h : StagedSame m s) (hns : ¬IsStaging i) :
    exec i (withBuf m s) = resultWithBuf m (exec i s) := by
  cases i with
  | enable id base capacity dataType => exact execEnable_withBuf m s id base capacity dataType
  | disable id => exact execDisable_withBuf m s id
  | writeStaged id bytes => exact absurd (.inl ⟨id, bytes, rfl⟩) hns
  | clearStaged id => exact absurd (.inr ⟨id, rfl⟩) hns
  | clearAll => exact execClearAll_withBuf m s
  | sendAll => exact execSendAll_withBuf h
  | notifyReady => exact execNotifyReady_withBuf m s
  | notifyHalt => exact execNotifyHalt_withBuf m s
  | cmdReserved op => rfl
  | rxByte b => exact execRxByte_withBuf h b
  | reset n => exact execReset_withBuf m s n
  | rxNone | rxReserved => exact handleType_withBuf h none
  | rxSync => exact handleType_withBuf h (some .sync)
  | rxSyncResp => exact handleType_withBuf h (some .syncResp)
  | rxAck => exact handleType_withBuf h (some .ack)
  | rxRequest => exact handleType_withBuf h (some .request)
  | rxData => exact handleType_withBuf h (some .data)
  | rxStop => exact handleType_withBuf h (some .stop)
  | rxDrop => exact handleType_withBuf h (some .drop)
  | txSync | txSyncResp | txAck | txRequest | txData | txStop | txDrop | serializeUnsupported =>
    exact serializeInto_withBuf h _

/-! ### Both runs, with what each leaves in `BUF` -/

/-- Outcomes of an operation at `s` and at `withBuf m s` that differ in `BUF` only, where each address reads the same
after both, or reads in each as it did before. -/
inductive Mirrors (m : Memory) (s : State) : Result State → Result State → Prop where
  | next {t : State} {m' : Memory}
      (hread : ∀ a, Memory.read m' a = Memory.read t.buf a ∨
        (Memory.read m' a = Memory.read m a ∧ Memory.read t.buf a = Memory.read s.buf a)) :
      Mirrors m s (.next t) (.next (withBuf m' t))
  | fault (f : Fault) : Mirrors m s (.fault f) (.fault f)
  | refused (r : Refusal) : Mirrors m s (.refused r) (.refused r)

/-- An operation that leaves `BUF` and does the same with the other contents. -/
theorem mirrors_resultWithBuf {m : Memory} {s : State} {r : Result State} (hb : ∀ t, r = .next t → t.buf = s.buf) :
    Mirrors m s r (resultWithBuf m r) := by
  cases r with
  | next t => exact .next fun a => .inr ⟨rfl, by rw [hb t rfl]⟩
  | fault f => exact .fault f
  | refused e => exact .refused e

/-- The byte just written reads the same in both, every other byte as before. -/
theorem mirrors_after_write {m : Memory} {s : State} {a : Nat} {v : Byte} {r r' : Result State}
    (h : Mirrors (Memory.write m a v) (withBuf (Memory.write s.buf a v) s) r r') : Mirrors m s r r' := by
  cases h with
  | next hread =>
    refine .next fun c => ?_
    have hc := hread c
    rw [withBuf_buf] at hc
    by_cases hca : c = a
    · subst hca
      rw [read_write_self, read_write_self] at hc
      exact .inl (hc.elim id fun ⟨h1, h2⟩ => h1.trans h2.symm)
    · rwa [read_write_ne _ _ hca, read_write_ne _ _ hca] at hc
  | fault f => exact .fault f
  | refused e => exact .refused e

theorem writeBytes_mirrors (m : Memory) (s : State) (a : Nat) (bs : List Byte) :
    Mirrors m s (writeBytes a bs s) (writeBytes a bs (withBuf m s)) := by
  induction bs generalizing m s a with
  | nil => exact .next fun _ => .inr ⟨rfl, rfl⟩
  | cons v vs ih =>
    by_cases ha : a < 2 ^ s.cfg.addrW
    · have hs : memWrite a v s = .next (withBuf (Memory.write s.buf a v) s) := if_pos ha
      have hm : memWrite a v (withBuf m s) = .next (withBuf (Memory.write m a v) s) := if_pos ha
      rw [writeBytes, writeBytes, hs, hm]
      exact mirrors_after_write (ih (Memory.write m a v) (withBuf (Memory.write s.buf a v) s) (a + 1))
    · have hs : memWrite a v s = .refused (.bufAddressOutOfRange a) := if_neg ha
      have hm : memWrite a v (withBuf m s) = .refused (.bufAddressOutOfRange a) := if_neg ha
      rw [writeBytes, writeBytes, hs, hm]
      exact .refused _

/-- What a staging command does after its write leaves `BUF` and does not look at it. -/
theorem Mirrors.andThen_next {m : Memory} {s : State} {r r' : Result State} {g : State → State}
    (hg : ∀ n t, g (withBuf n t) = withBuf n (g t)) (hb : ∀ t, (g t).buf = t.buf) (h : Mirrors m s r r') :
    Mirrors m s (andThen r fun t => .next (g t)) (andThen r' fun t => .next (g t)) := by
  cases h with
  | @next t m' hread =>
    simp only [Machine.andThen_next, hg]
    exact .next fun a => by rw [hb]; exact hread a
  | fault f => exact .fault f
  | refused e => exact .refused e

theorem ite_mirrors {m : Memory} {s : State} {c : Prop} [Decidable c] {x x' y y' : Result State}
    (hx : Mirrors m s x x') (hy : Mirrors m s y y') : Mirrors m s (if c then x else y) (if c then x' else y') := by
  split
  · exact hx
  · exact hy

theorem admitted_mirrors {m : Memory} {s : State} {k : State → Result State}
    (hk : Mirrors m s (k s) (k (withBuf m s))) : Mirrors m s (admitted s k) (admitted (withBuf m s) k) :=
  ite_mirrors hk (.refused _)

theorem raise_mirrors (m : Memory) (s : State) (e : Status) : Mirrors m s (raise e s) (raise e (withBuf m s)) :=
  .next fun _ => .inr ⟨rfl, rfl⟩

theorem execWriteStaged_mirrors (m : Memory) (s : State) (id : Byte) (bytes : List Byte) :
    Mirrors m s (execWriteStaged id bytes s) (execWriteStaged id bytes (withBuf m s)) := by
  refine admitted_mirrors (ite_mirrors (raise_mirrors m s _) (ite_mirrors (raise_mirrors m s _) ?_))
  exact (writeBytes_mirrors m s _ bytes).andThen_next (g := fun t => emit (.ret .ok)
    (setSession (stageSlot t.S id.toNat bytes.length) t)) (fun _ _ => rfl) fun _ => rfl

theorem execClearStaged_mirrors (m : Memory) (s : State) (id : Byte) :
    Mirrors m s (execClearStaged id s) (execClearStaged id (withBuf m s)) := by
  refine admitted_mirrors (ite_mirrors (raise_mirrors m s _) ?_)
  exact (writeBytes_mirrors m s _ _).andThen_next (g := fun t => emit (.ret .ok)
    (setSession (stageSlot t.S id.toNat 0) t)) (fun _ _ => rfl) fun _ => rfl

theorem exec_mirrors {m : Memory} {s : State} (h : StagedSame m s) (i : Instr) :
    Mirrors m s (exec i s) (exec i (withBuf m s)) := by
  by_cases hst : IsStaging i
  · obtain ⟨id, bytes, rfl⟩ | ⟨id, rfl⟩ := hst
    · exact execWriteStaged_mirrors m s id bytes
    · exact execClearStaged_mirrors m s id
  · rw [exec_withBuf h hst]
    exact mirrors_resultWithBuf fun _ => exec_buf_of_not_staging hst

/-- Settles O57: only a staging command writes `BUF`, every other instruction does the same with the other contents, and
a staging command writes the same bytes over them. -/
theorem onlyStagingCommandsWriteBufAndOnlyStagedBytesAreRead :
    Obligations.OnlyStagingCommandsWriteBufAndOnlyStagedBytesAreRead := by
  unfold Obligations.OnlyStagingCommandsWriteBufAndOnlyStagedBytesAreRead
  refine ⟨fun s t i h hw hc => ?_, fun s m i hsame => ?_⟩
  · refine exec_buf_of_not_staging ?_ h
    rintro (⟨id, bytes, hi⟩ | ⟨id, hi⟩)
    · exact hw id bytes hi
    · exact hc id hi
  · have h : Mirrors m s (exec i s) (exec i { s with buf := m }) := exec_mirrors hsame i
    generalize exec i s = r, exec i { s with buf := m } = r' at h ⊢
    cases h with
    | next hread => exact ⟨_, rfl, hread⟩
    | fault f => rfl
    | refused e => rfl

end Sys2Proof.Machine
end

section
/-! PROOFS. The decoder and the encoder of every port (30_encoding.md): an encoding decodes back, what is decoded is
well-formed and re-encodes to the bytes it came from, its first byte is one row of the opcode table, and the command
port's refusals. -/

namespace Sys2Proof

/-! ### The rows of one byte -/

theorem rxInstr_reserved {type : Byte} (f : RxFrame) (h : 8 ≤ type.toNat) : rxInstr type f = .rxReserved type f := by
  unfold rxInstr
  split
  case h_9 => rfl
  all_goals omega

theorem txInstr_unsupported {type : Byte} (h : type.toNat = 0 ∨ 8 ≤ type.toNat) :
    txInstr type = .serializeUnsupported type := by
  unfold txInstr
  split
  case h_8 => rfl
  all_goals omega

theorem rxInstr_wf_port (cfg : Config) (type : Byte) (f : RxFrame) :
    (rxInstr type f).wf cfg = true ∧ (rxInstr type f).port = .frameRx := by
  unfold rxInstr
  split
  case h_9 =>
    have hres : 8 ≤ type.toNat := by simp only [imp_false] at *; omega
    exact ⟨decide_eq_true hres, rfl⟩
  all_goals exact ⟨rfl, rfl⟩

theorem txInstr_wf_port (cfg : Config) (type : Byte) :
    (txInstr type).wf cfg = true ∧ (txInstr type).port = .frameTx := by
  unfold txInstr
  split
  case h_8 =>
    have hres : type.toNat = 0 ∨ 8 ≤ type.toNat := by simp only [imp_false] at *; omega
    exact ⟨decide_eq_true hres, rfl⟩
  all_goals exact ⟨rfl, rfl⟩

theorem encode_rxInstr (cfg : Config) (type : Byte) (f : RxFrame) :
    encode cfg (rxInstr type f) = encodeFrame type f := by
  unfold rxInstr
  split
  case h_9 => rfl
  all_goals next h => exact congrArg (encodeFrame · f) (BitVec.eq_of_toNat_eq h).symm

theorem encode_txInstr (cfg : Config) (type : Byte) : encode cfg (txInstr type) = [type] := by
  unfold txInstr
  split
  case h_8 => rfl
  all_goals next h => exact congrArg ([·]) (BitVec.eq_of_toNat_eq h).symm

/-! ### Decoding an encoding -/

theorem decodeFrame_encode (cfg : Config) (i : Instr) (hwf : i.wf cfg = true) (hp : i.port = .frameRx) :
    decodeFrame (encode cfg i) = .ok (i, []) := by
  cases i with
  | rxReserved type f =>
    have hres : 8 ≤ type.toNat := of_decide_eq_true hwf
    rw [← rxInstr_reserved f hres, encode_rxInstr, decodeFrame_encodeFrame]
  | rxNone f | rxSync f | rxSyncResp f | rxAck f | rxRequest f | rxData f | rxStop f | rxDrop f =>
    exact decodeFrame_encodeFrame _ f
  | _ => cases hp

theorem decodeByte_txInstr_encode (cfg : Config) (i : Instr) (rest : List Byte) (hwf : i.wf cfg = true)
    (hp : i.port = .frameTx) : decodeByte txInstr (encode cfg i ++ rest) = .ok (i, rest) := by
  cases i with
  | serializeUnsupported type =>
    have hres : type.toNat = 0 ∨ 8 ≤ type.toNat := of_decide_eq_true hwf
    simp only [encode, List.cons_append, List.nil_append, decodeByte, txInstr_unsupported hres]
  | txSync | txSyncResp | txAck | txRequest | txData | txStop | txDrop => rfl
  | _ => cases hp

/-! ### The bytes of a decoded instruction -/

theorem decodeByte_ok {mk : Byte → Instr} {bs rest : List Byte} {i : Instr} (h : decodeByte mk bs = .ok (i, rest)) :
    ∃ b, bs = b :: rest ∧ i = mk b := by
  cases bs with
  | nil => cases h
  | cons b bs => cases h; exact ⟨b, rfl, rfl⟩

theorem decodeId_ok {mk : Byte → Instr} {bs rest : List Byte} {i : Instr} (h : decodeId mk bs = .ok (i, rest)) :
    ∃ id, bs = id :: rest ∧ i = mk id :=
  decodeByte_ok (mk := mk) (bs := bs) h

theorem decodeFrame_ok {s rest : List Byte} {i : Instr} (h : decodeFrame s = .ok (i, rest)) :
    i = rxInstr (byteAt s 0) (rxFrameOf s) ∧ rest = [] := by
  unfold decodeFrame at h
  split at h
  · cases h
  · cases h; exact ⟨rfl, rfl⟩

/-- A decoded command re-encodes to the bytes it came from (30_encoding.md R130, decision D3). -/
theorem decodeCommand_bytes {cfg : Config} {bs rest : List Byte} {i : Instr}
    (h : decodeCommand cfg bs = .ok (i, rest)) : encode cfg i ++ rest = bs := by
  cases bs with
  | nil => cases h
  | cons op bs =>
    simp only [decodeCommand] at h
    split at h
    case h_9 => cases h; rfl
    all_goals
      rename_i hop
      obtain ⟨-, rfl⟩ := BitVec.toNat_eq_nat.1 hop
    case h_1 =>
      obtain ⟨id, base, cap, ty, rfl, -, rfl⟩ := decodeEnable_ok h
      rfl
    case h_3 =>
      obtain ⟨id, bytes, rfl, -, rfl⟩ := decodeWriteStaged_ok h
      rfl
    case h_2 | h_4 => obtain ⟨id, rfl, rfl⟩ := decodeId_ok h; rfl
    all_goals cases h; rfl

/-- The first byte decoded is the first byte of the instruction's encoding; for a received frame too, whose other bytes
may differ (41_frame_codec.md R196). -/
theorem byteAt_encode_of_decode {cfg : Config} {p : Port} {b : Byte} {bs rest : List Byte} {i : Instr}
    (h : decode cfg p (b :: bs) = .ok (i, rest)) : byteAt (encode cfg i) 0 = b := by
  cases p with
  | cmd =>
    have happend : byteAt (encode cfg i ++ rest) 0 = byteAt (encode cfg i) 0 := by cases i <;> rfl
    have hbytes : encode cfg i ++ rest = b :: bs := decodeCommand_bytes h
    rw [← happend, hbytes]
    rfl
  | rx | reset => cases h; rfl
  | frameRx =>
    obtain ⟨rfl, -⟩ := decodeFrame_ok h
    rw [encode_rxInstr]
    rfl
  | frameTx =>
    cases h
    rw [encode_txInstr]
    rfl

/-! ### The opcode table -/

/-- The mnemonics of the rows of spec/opcode_table.json that a byte falls under as byte 0 at a port. -/
def rowMnemonics (p : Port) (b : Byte) : List String := (opcodeTable.filter (·.covers p b)).map (·.mnemonic)

/-- The masks of the CMD_RESERVED rows cut their range into disjoint parts (30_encoding.md R132). -/
theorem rowMnemonics_cmdReserved :
    ∀ b : Byte, b.toNat = 0 ∨ 9 ≤ b.toNat → rowMnemonics .cmd b = ["CMD_RESERVED"] := by decide

/-- The masks of the RX_RESERVED rows cut their range into disjoint parts (30_encoding.md R117). -/
theorem rowMnemonics_rxReserved :
    ∀ b : Byte, 8 ≤ b.toNat → rowMnemonics .frameRx b = ["RX_RESERVED"] := by decide

/-- The masks of the SERIALIZE_UNSUPPORTED rows cut their range into disjoint parts (41_frame_codec.md R189). -/
theorem rowMnemonics_serializeUnsupported :
    ∀ b : Byte, b.toNat = 0 ∨ 8 ≤ b.toNat → rowMnemonics .frameTx b = ["SERIALIZE_UNSUPPORTED"] := by decide

/-- The row of a byte event has the empty mask, so it covers every byte (30_encoding.md R133). -/
theorem rowMnemonics_byteEvents (b : Byte) :
    rowMnemonics .rx b = ["RX_BYTE"] ∧ rowMnemonics .reset b = ["RESET"] := by
  simp [rowMnemonics, opcodeTable, commandRows, reservedCommandRows, byteEventRows, receivedRows, serializedRows,
    TableRow.covers]

/-- The first byte of a well-formed instruction's encoding falls under one row at its port, the instruction's own. -/
theorem rowMnemonics_encode {cfg : Config} {i : Instr} (hwf : i.wf cfg = true) :
    rowMnemonics i.port (byteAt (encode cfg i) 0) = [i.mnemonic] := by
  cases i with
  | cmdReserved op => exact rowMnemonics_cmdReserved op (of_decide_eq_true hwf)
  | rxReserved type f => exact rowMnemonics_rxReserved type (of_decide_eq_true hwf)
  | serializeUnsupported type => exact rowMnemonics_serializeUnsupported type (of_decide_eq_true hwf)
  | rxByte b => exact (rowMnemonics_byteEvents b).1
  | reset n => exact (rowMnemonics_byteEvents n).2
  | _ =>
    simp only [encode, encodeFrame, byteAt, List.getD_cons_zero, Instr.port, Instr.mnemonic]
    decide

/-! ### The command port's refusals -/

/-- Fewer bytes than 30_encoding.md R130 gives the command are no command (R132). -/
theorem decodeCommand_short {cfg : Config} {bs : List Byte} (h : bs.length < commandLength cfg bs) :
    decodeCommand cfg bs = .error .short := by
  cases bs with
  | nil => rfl
  | cons op bs =>
    have h : bs.length + 1 < commandLength cfg (op :: bs) := h
    have noId : ∀ mk, bs.length + 1 < 2 → decodeId mk bs = .error .short := fun mk hl => by
      rw [List.length_eq_zero_iff.1 (by omega : bs.length = 0)]
      rfl
    unfold commandLength at h
    simp only [decodeCommand]
    split at h
    all_goals
      rename_i hop
      simp only [byteAt, List.getD_cons_zero] at hop
    case h_1 =>
      simp only [hop, decodeEnable]
      rw [if_pos (by omega)]
    case h_2 | h_4 => simp only [hop, noId _ h]
    case h_3 =>
      simp only [List.drop_succ_cons] at h
      simp only [hop, decodeWriteStaged]
      split
      · rfl
      · rw [if_pos (by omega)]
    case h_5 => omega

/-- ENABLE's little-endian base has to be an ADDR_W-bit address (30_encoding.md R131). -/
theorem decodeEnable_baseTooWide {cfg : Config} (id dataType : Byte) {base capacity : List Byte} (rest : List Byte)
    (hb : base.length = addrBytes cfg) (hc : capacity.length = 4) (hwide : 2 ^ cfg.addrW ≤ leNat base) :
    decodeEnable cfg (id :: (base ++ capacity ++ dataType :: rest)) = .error .baseTooWide := by
  have hlong : ¬(id :: (base ++ capacity ++ dataType :: rest)).length < 6 + addrBytes cfg := by
    simp only [List.length_cons, List.length_append, hb, hc]
    omega
  have hbase : ((id :: (base ++ capacity ++ dataType :: rest)).drop 1).take (addrBytes cfg) = base := by
    rw [List.drop_succ_cons, List.drop_zero, List.append_assoc, List.take_left' hb]
  unfold decodeEnable
  simp only [if_neg hlong, hbase, if_neg (Nat.not_lt.2 hwide)]

end Sys2Proof

namespace Sys2Proof.Machine

theorem runBytes_of_reject {p : Port} {bs : List Byte} {r : Reject} {s : State} (es : List Event)
    (h : decode s.cfg p bs = .error r) : runBytes p bs es s = .refused (refusalOf r) := by
  simp only [runBytes, fetch, h, andThen_refused]

/-! ### The statements -/

/-- Settles O1, port by port: the operands of every encoding are read back, and a reserved byte makes its own row. -/
theorem everyEncodedInstructionDecodesBack : Obligations.EveryEncodedInstructionDecodesBack := by
  unfold Obligations.EveryEncodedInstructionDecodesBack
  intro cfg i rest hwf hrest
  cases hp : i.port with
  | cmd => exact decodeCommand_encode cfg i rest hwf hp
  | frameRx =>
    rw [hrest hp, List.append_nil]
    exact decodeFrame_encode cfg i hwf hp
  | frameTx => exact decodeByte_txInstr_encode cfg i rest hwf hp
  | rx | reset =>
    cases i with
    | rxByte | reset => cases hp <;> rfl
    | _ => cases hp

/-- Settles O2: each port's decoder answers a well-formed instruction of that port. -/
theorem decodedInstructionsAreWellFormed : Obligations.DecodedInstructionsAreWellFormed := by
  unfold Obligations.DecodedInstructionsAreWellFormed
  intro cfg p bs rest i h
  cases p with
  | cmd => exact decodeCommand_ok h
  | rx | reset =>
    obtain ⟨b, -, rfl⟩ := decodeByte_ok h
    exact ⟨rfl, rfl⟩
  | frameRx =>
    obtain ⟨rfl, -⟩ := decodeFrame_ok h
    exact rxInstr_wf_port cfg _ _
  | frameTx =>
    obtain ⟨b, -, rfl⟩ := decodeByte_ok h
    exact txInstr_wf_port cfg b

/-- Settles O3: the first byte is the one of the decoded instruction's encoding, and by O2 that instruction is
well-formed and of the port, so its own row covers the byte and no other does. -/
theorem decodingFollowsTheOpcodeTable : Obligations.DecodingFollowsTheOpcodeTable := by
  unfold Obligations.DecodingFollowsTheOpcodeTable
  intro cfg p b bs rest i h
  obtain ⟨hwf, rfl⟩ := decodedInstructionsAreWellFormed cfg p (b :: bs) rest i h
  have hrows := rowMnemonics_encode hwf
  rw [byteAt_encode_of_decode h] at hrows
  exact List.map_eq_singleton_iff.1 hrows

/-- Settles O4: a command's bytes are its encoding, and at the other ports the one byte is. -/
theorem consumedBytesAreTheEncoding : Obligations.ConsumedBytesAreTheEncoding := by
  unfold Obligations.ConsumedBytesAreTheEncoding
  intro cfg p bs rest i hp h
  cases p with
  | cmd => exact decodeCommand_bytes h
  | rx | reset =>
    obtain ⟨b, rfl, rfl⟩ := decodeByte_ok h
    rfl
  | frameTx =>
    obtain ⟨b, rfl, rfl⟩ := decodeByte_ok h
    rw [encode_txInstr]
    rfl
  | frameRx => exact absurd rfl hp

/-- Settles O5: the decoder evaluated on the six words. -/
theorem specVectorsDecode : Obligations.SpecVectorsDecode := by
  unfold Obligations.SpecVectorsDecode
  decide

/-- Settles O6: a reserved opcode's meaning is the refusal, and a short command or a wide base is rejected by the
decoder before anything runs. -/
theorem reservedAndShortCommandsAreRefused : Obligations.ReservedAndShortCommandsAreRefused := by
  unfold Obligations.ReservedAndShortCommandsAreRefused
  refine ⟨fun op s => rfl, fun s bs es hshort => ?_, fun s id dataType base capacity rest es hb hc hwide => ?_⟩
  · have hdec : decode s.cfg .cmd bs = .error .short := decodeCommand_short hshort
    exact runBytes_of_reject (s := { s with input := .cmd bs :: es }) es hdec
  · have hdec : decode s.cfg .cmd (0x01 :: id :: (base ++ capacity ++ dataType :: rest)) = .error .baseTooWide :=
      decodeEnable_baseTooWide id dataType rest hb hc hwide
    exact runBytes_of_reject (s := { s with input := .cmd _ :: es }) es hdec

end Sys2Proof.Machine
end

section
/-! PROOFS. The registry operations (40_channel_registry.md): an equation for each case of each operation, the staging
write that WRITE_STAGED and CLEAR_STAGED share, and how little of the state the operations look at. -/

namespace Sys2Proof.Machine

/-! ### What the operations do to the slots and leave alone -/

theorem installSlot_spec (S : Session) {i : Nat} (base capacity : Nat) (dataType : Byte) (h : i < 32) :
    slotAt (installSlot S i base capacity dataType) i = ⟨true, dataType, capacity, 0, base⟩ ∧
    ∀ j, j ≠ i → slotAt (installSlot S i base capacity dataType) j = slotAt S j :=
  ⟨slotAt_setSlot_self _ h, fun _ hj => slotAt_setSlot_ne _ hj⟩

theorem removeSlot_spec (S : Session) {i : Nat} (h : i < 32) :
    slotAt (removeSlot S i) i = Slot.empty ∧ ∀ j, j ≠ i → slotAt (removeSlot S i) j = slotAt S j :=
  ⟨slotAt_setSlot_self _ h, fun _ hj => slotAt_setSlot_ne _ hj⟩

theorem failsWith_emit (e : Status) (s : State) : FailsWith e s (emit (.ret e) s) :=
  ⟨rfl, fun _ => rfl, ⟨rfl, rfl, rfl⟩, rfl⟩

/-- What every registry operation leaves alone when it answers (R157). -/
theorem reg_frame {i : Instr} {s t : State} (hi : IsReg i) (h : exec i s = .next t) :
    (∃ e, Outputs s t [.ret e]) ∧ SameLink s.S t.S ∧ SameReceive s.S t.S ∧ SameRest s t := by
  obtain ⟨sl, ec, rs, e, b, rfl⟩ := reg_shape hi h
  exact ⟨⟨e, rfl⟩, ⟨rfl, rfl, rfl, rfl, rfl, rfl⟩, ⟨rfl, rfl, rfl⟩, rfl, rfl, rfl⟩

/-! ### The staging write of WRITE_STAGED and CLEAR_STAGED (R153, R154) -/

/-- Write a string from the base of slot `i` on, then set the slot's staged size to `n` and return OK. -/
def stageBytes (i : Nat) (bytes : List Byte) (n : Nat) (s : State) : Result State :=
  andThen (writeBytes (slotAt s.S i).base bytes s) fun t => retStatus .ok (setSession (stageSlot t.S i n) t)

theorem stageBytes_refused {i n : Nat} {bytes : List Byte} {s : State}
    (h : ∃ k < bytes.length, 2 ^ s.cfg.addrW ≤ (slotAt s.S i).base + k) :
    ∃ a, stageBytes i bytes n s = .refused (.bufAddressOutOfRange a) := by
  obtain ⟨a, ha⟩ := writeBytes_refused h
  exact ⟨a, by rw [stageBytes, ha, andThen_refused]⟩

/-- A staging write inside `BUF`: exactly the string's bytes are written, and the slot's staged size is set. -/
theorem stageBytes_next {i n : Nat} {bytes : List Byte} {s : State} (hi : i < 32)
    (h : ∀ k < bytes.length, (slotAt s.S i).base + k < 2 ^ s.cfg.addrW) :
    ∃ t, stageBytes i bytes n s = .next t ∧
      (∀ k < bytes.length, bytes[k]? = some (Memory.read t.buf ((slotAt s.S i).base + k))) ∧
      (∀ a, a < (slotAt s.S i).base ∨ (slotAt s.S i).base + bytes.length ≤ a →
        Memory.read t.buf a = Memory.read s.buf a) ∧
      slotAt t.S i = { slotAt s.S i with stagedSize := n } ∧ (∀ j, j ≠ i → slotAt t.S j = slotAt s.S j) ∧
      t.S.enabledCount = s.S.enabledCount ∧ t.S.reservedSize = s.S.reservedSize ∧
      SameLink s.S t.S ∧ SameReceive s.S t.S ∧ SameRest s t ∧ Outputs s t [.ret .ok] := by
  obtain ⟨u, hu⟩ := writeBytes_answers h
  obtain ⟨hkeep, hwritten, helse, -, -, -⟩ := writeBytes_spec hu
  obtain ⟨m, rfl⟩ : ∃ m, u = withBuf m s := ⟨_, hkeep⟩
  obtain ⟨hself, hother⟩ := stageSlot_spec s.S n hi
  have heq : stageBytes i bytes n s = .next (emit (.ret .ok) (setSession (stageSlot s.S i n) (withBuf m s))) := by
    rw [stageBytes, hu]; rfl
  exact ⟨_, heq, hwritten, helse, hself, hother, rfl, rfl, ⟨rfl, rfl, rfl, rfl, rfl, rfl⟩, ⟨rfl, rfl, rfl⟩,
    ⟨rfl, rfl, rfl⟩, rfl⟩

theorem stageBytes_next_or_refused {i n : Nat} {bytes : List Byte} {s : State} (hi : i < 32) :
    (∃ t, stageBytes i bytes n s = .next t) ∨ ∃ a, stageBytes i bytes n s = .refused (.bufAddressOutOfRange a) := by
  by_cases h : ∃ k < bytes.length, 2 ^ s.cfg.addrW ≤ (slotAt s.S i).base + k
  · exact .inr (stageBytes_refused h)
  · obtain ⟨t, ht, -⟩ := stageBytes_next (n := n) hi fun k hk => Nat.lt_of_not_le fun hle => h ⟨k, hk, hle⟩
    exact .inl ⟨t, ht⟩

/-! ### The cases of each operation on an initialized engine -/

section Cases

variable {s : State} (hi : s.S.initialized = true)
include hi

theorem exec_enable_outOfRange {id : Byte} (base : Nat) (capacity : BitVec 32) (dataType : Byte)
    (hr : inRange s.S id = false) :
    exec (.enable id base capacity dataType) s = .next (emit (.ret .invalidChannel) s) := by
  rw [exec, execEnable, admitted_of_initialized _ hi, if_pos hr]
  rfl

theorem exec_enable_overBudget {id : Byte} (base : Nat) {capacity : BitVec 32} (dataType : Byte)
    (hr : ¬inRange s.S id = false) (hc : 65536 < s.S.reservedSize + capacity.toNat) :
    exec (.enable id base capacity dataType) s = .next (emit (.ret .capacityExceeded) s) := by
  rw [exec, execEnable, admitted_of_initialized _ hi, if_neg hr, if_pos hc]
  rfl

theorem exec_enable_installs {id : Byte} (base : Nat) {capacity : BitVec 32} (dataType : Byte)
    (hr : ¬inRange s.S id = false) (hc : ¬65536 < s.S.reservedSize + capacity.toNat) :
    exec (.enable id base capacity dataType) s =
      .next (emit (.ret .ok) (setSession (installSlot s.S id.toNat base capacity.toNat dataType) s)) := by
  rw [exec, execEnable, admitted_of_initialized _ hi, if_neg hr, if_neg hc]
  rfl

theorem exec_disable_unusable {id : Byte} (hu : usable s.S id = false) :
    exec (.disable id) s = .next (emit (.ret .invalidChannel) s) := by
  rw [exec, execDisable, admitted_of_initialized _ hi, if_pos hu]
  rfl

theorem exec_disable_removes {id : Byte} (hu : ¬usable s.S id = false) :
    exec (.disable id) s = .next (emit (.ret .ok) (setSession (removeSlot s.S id.toNat) s)) := by
  rw [exec, execDisable, admitted_of_initialized _ hi, if_neg hu]
  rfl

theorem exec_writeStaged_unusable {id : Byte} (bytes : List Byte) (hu : usable s.S id = false) :
    exec (.writeStaged id bytes) s = .next (emit (.ret .invalidChannel) s) := by
  rw [exec, execWriteStaged, admitted_of_initialized _ hi, if_pos hu]
  rfl

theorem exec_writeStaged_tooLong {id : Byte} {bytes : List Byte} (hu : ¬usable s.S id = false)
    (hl : (slotAt s.S id.toNat).capacity < bytes.length) :
    exec (.writeStaged id bytes) s = .next (emit (.ret .sizeExceeded) s) := by
  rw [exec, execWriteStaged, admitted_of_initialized _ hi, if_neg hu, if_pos hl]
  rfl

theorem exec_writeStaged_stages {id : Byte} {bytes : List Byte} (hu : ¬usable s.S id = false)
    (hl : bytes.length ≤ (slotAt s.S id.toNat).capacity) :
    exec (.writeStaged id bytes) s = stageBytes id.toNat bytes bytes.length s := by
  rw [exec, execWriteStaged, admitted_of_initialized _ hi, if_neg hu, if_neg (Nat.not_lt.2 hl)]
  rfl

theorem exec_clearStaged_unusable {id : Byte} (hu : usable s.S id = false) :
    exec (.clearStaged id) s = .next (emit (.ret .invalidChannel) s) := by
  rw [exec, execClearStaged, admitted_of_initialized _ hi, if_pos hu]
  rfl

theorem exec_clearStaged_stages {id : Byte} (hu : ¬usable s.S id = false) :
    exec (.clearStaged id) s = stageBytes id.toNat (List.replicate (slotAt s.S id.toNat).capacity 0) 0 s := by
  rw [exec, execClearStaged, admitted_of_initialized _ hi, if_neg hu]
  rfl

theorem exec_clearAll_empties :
    exec .clearAll s = .next (emit (.ret .ok) (setSession
      { s.S with slots := Vector.replicate 32 Slot.empty, enabledCount := 0, reservedSize := 0 } s)) := by
  rw [exec, execClearAll, admitted_of_initialized _ hi]
  rfl

/-- A registry operation of an initialized engine answers, or stops at a byte outside `BUF` (R158, 20_memory.md R84). -/
theorem reg_next_or_refused {i : Instr} (hreg : IsReg i) :
    (∃ t, exec i s = .next t) ∨ ∃ a, exec i s = .refused (.bufAddressOutOfRange a) := by
  rcases hreg with ⟨id, base, capacity, dataType, rfl⟩ | ⟨id, rfl⟩ | ⟨id, bytes, rfl⟩ | ⟨id, rfl⟩ | rfl
  · by_cases hr : inRange s.S id = false
    · exact .inl ⟨_, exec_enable_outOfRange hi base capacity dataType hr⟩
    by_cases hc : 65536 < s.S.reservedSize + capacity.toNat
    · exact .inl ⟨_, exec_enable_overBudget hi base dataType hr hc⟩
    · exact .inl ⟨_, exec_enable_installs hi base dataType hr hc⟩
  · by_cases hu : usable s.S id = false
    · exact .inl ⟨_, exec_disable_unusable hi hu⟩
    · exact .inl ⟨_, exec_disable_removes hi hu⟩
  · by_cases hu : usable s.S id = false
    · exact .inl ⟨_, exec_writeStaged_unusable hi bytes hu⟩
    by_cases hl : bytes.length ≤ (slotAt s.S id.toNat).capacity
    · rw [exec_writeStaged_stages hi hu hl]
      exact stageBytes_next_or_refused (usable_spec hu).1
    · exact .inl ⟨_, exec_writeStaged_tooLong hi hu (Nat.lt_of_not_le hl)⟩
  · by_cases hu : usable s.S id = false
    · exact .inl ⟨_, exec_clearStaged_unusable hi hu⟩
    · rw [exec_clearStaged_stages hi hu]
      exact stageBytes_next_or_refused (usable_spec hu).1
  · exact .inl ⟨_, exec_clearAll_empties hi⟩

end Cases

/-! ### Another connection state (R158) -/

/-- An operation's outcome with another connection state in the state it leaves. -/
def resultWithConn (c : ConnState) (r : Result State) : Result State := andThen r fun t => .next (setConn c t)

theorem ite_resultWithConn {c : ConnState} {p : Prop} [Decidable p] {x x' y y' : Result State}
    (hx : x' = resultWithConn c x) (hy : y' = resultWithConn c y) :
    (if p then x' else y') = resultWithConn c (if p then x else y) := by
  split
  · exact hx
  · exact hy

theorem admitted_setConn {c : ConnState} {s : State} {k : State → Result State}
    (hk : k (setConn c s) = resultWithConn c (k s)) :
    admitted (setConn c s) k = resultWithConn c (admitted s k) :=
  ite_resultWithConn hk rfl

theorem stageBytes_setConn (c : ConnState) (i n : Nat) (bytes : List Byte) (s : State) :
    stageBytes i bytes n (setConn c s) = resultWithConn c (stageBytes i bytes n s) := by
  have hw : writeBytes (slotAt (setConn c s).S i).base bytes (setConn c s) =
      resultWithConn c (writeBytes (slotAt s.S i).base bytes s) := writeBytes_setConn c bytes _ s
  rw [stageBytes, stageBytes, hw, resultWithConn, resultWithConn, andThen_assoc, andThen_assoc]
  rfl

/-- A registry operation does the same in every connection state and keeps it. -/
theorem reg_setConn {i : Instr} (hreg : IsReg i) (c : ConnState) (s : State) :
    exec i (setConn c s) = resultWithConn c (exec i s) := by
  rcases hreg with ⟨id, base, capacity, dataType, rfl⟩ | ⟨id, rfl⟩ | ⟨id, bytes, rfl⟩ | ⟨id, rfl⟩ | rfl
  · simp only [exec, execEnable]
    exact admitted_setConn (ite_resultWithConn rfl (ite_resultWithConn rfl rfl))
  · simp only [exec, execDisable]
    exact admitted_setConn (ite_resultWithConn rfl rfl)
  · simp only [exec, execWriteStaged]
    exact admitted_setConn (ite_resultWithConn rfl (ite_resultWithConn rfl (stageBytes_setConn c _ _ bytes s)))
  · simp only [exec, execClearStaged]
    exact admitted_setConn (ite_resultWithConn rfl (stageBytes_setConn c _ 0 _ s))
  · simp only [exec, execClearAll]
    exact admitted_setConn rfl

/-! ### The statements -/

/-- Settles O11, case by case in the rule's order. -/
theorem enableFollowsItsRule : Obligations.EnableFollowsItsRule := by
  unfold Obligations.EnableFollowsItsRule
  simp only [← inRange_eq_false]
  intro s id base capacity dataType hi
  by_cases hr : inRange s.S id = false
  · exact ⟨_, exec_enable_outOfRange hi base capacity dataType hr, by rw [if_pos hr]; exact failsWith_emit _ s⟩
  by_cases hc : 65536 < s.S.reservedSize + capacity.toNat
  · exact ⟨_, exec_enable_overBudget hi base dataType hr hc, by rw [if_neg hr, if_pos hc]; exact failsWith_emit _ s⟩
  · have hnext := exec_enable_installs hi base dataType hr hc
    obtain ⟨-, hlink, hreceive, hrest⟩ := reg_frame (.inl ⟨id, base, capacity, dataType, rfl⟩) hnext
    obtain ⟨hself, hother⟩ :=
      installSlot_spec s.S base capacity.toNat dataType (inRange_lt (Bool.of_not_eq_false hr))
    refine ⟨_, hnext, ?_⟩
    rw [if_neg hr, if_neg hc]
    exact ⟨hself, hother, rfl, rfl, hlink, hreceive, fun _ => rfl, hrest, rfl⟩

/-- Settles O12: the id check fails, or the slot is removed. -/
theorem disableFollowsItsRule : Obligations.DisableFollowsItsRule := by
  unfold Obligations.DisableFollowsItsRule
  simp only [← usable_eq_false]
  intro s id hi
  by_cases hu : usable s.S id = false
  · exact ⟨_, exec_disable_unusable hi hu, by rw [if_pos hu]; exact failsWith_emit _ s⟩
  · have hnext := exec_disable_removes hi hu
    obtain ⟨-, hlink, hreceive, hrest⟩ := reg_frame (.inr (.inl ⟨id, rfl⟩)) hnext
    obtain ⟨hself, hother⟩ := removeSlot_spec s.S (usable_spec hu).1
    refine ⟨_, hnext, ?_⟩
    rw [if_neg hu]
    exact ⟨hself, hother, rfl, rfl, hlink, hreceive, fun _ => rfl, hrest, rfl⟩

/-- Settles O13: past its two failures WRITE_STAGED is the staging write of its bytes. -/
theorem writeStagedFollowsItsRule : Obligations.WriteStagedFollowsItsRule := by
  unfold Obligations.WriteStagedFollowsItsRule
  simp only [← usable_eq_false]
  intro s id bytes hi
  refine ⟨fun hu => ⟨_, exec_writeStaged_unusable hi bytes hu, failsWith_emit _ s⟩,
    fun hu hl => ⟨_, exec_writeStaged_tooLong hi hu hl, failsWith_emit _ s⟩,
    fun hu hl hout => ?_, fun hu hl hin => ?_⟩
  · rw [exec_writeStaged_stages hi hu hl]
    exact stageBytes_refused hout
  · rw [exec_writeStaged_stages hi hu hl]
    exact stageBytes_next (usable_spec hu).1 hin

/-- Settles O14: past the id check CLEAR_STAGED is the staging write of `capacity` zeros. -/
theorem clearStagedFollowsItsRule : Obligations.ClearStagedFollowsItsRule := by
  unfold Obligations.ClearStagedFollowsItsRule
  simp only [← usable_eq_false]
  intro s id hi
  refine ⟨fun hu => ⟨_, exec_clearStaged_unusable hi hu, failsWith_emit _ s⟩, fun hu hout => ?_, fun hu hin => ?_⟩
  · rw [exec_clearStaged_stages hi hu]
    exact stageBytes_refused (by rwa [List.length_replicate])
  · rw [exec_clearStaged_stages hi hu]
    have hzeros := List.length_replicate (n := (slotAt s.S id.toNat).capacity) (a := (0 : Byte))
    obtain ⟨t, ht, hwritten, helse, hregistry⟩ := stageBytes_next (n := 0) (usable_spec hu).1 (by rwa [hzeros])
    rw [hzeros] at hwritten helse
    have hzero : ∀ k < (slotAt s.S id.toNat).capacity,
        Memory.read t.buf ((slotAt s.S id.toNat).base + k) = 0 := fun k hk =>
      (Option.some.inj ((List.getElem?_replicate_of_lt hk).symm.trans (hwritten k hk))).symm
    exact ⟨t, ht, hzero, helse, hregistry⟩

/-- Settles O15: the new slots are all empty, and the registry's fields are all that is written. -/
theorem clearAllFollowsItsRule : Obligations.ClearAllFollowsItsRule := by
  unfold Obligations.ClearAllFollowsItsRule
  intro s hi
  have hnext := exec_clearAll_empties hi
  obtain ⟨-, hlink, hreceive, hrest⟩ := reg_frame (.inr (.inr (.inr (.inr rfl)))) hnext
  exact ⟨_, hnext, slotAt_replicate rfl, rfl, rfl, hlink, hreceive, fun _ => rfl, hrest, rfl⟩

/-- Settles O16: the registry operations write the registry and `BUF` and append their status. -/
theorem registryOperationsDoNoInputOutput : Obligations.RegistryOperationsDoNoInputOutput := by
  unfold Obligations.RegistryOperationsDoNoInputOutput
  exact fun s t i hreg h => reg_frame hreg h

/-- Settles O17: an initialized engine answers or leaves `BUF`, and no check or write of a registry operation looks at
the connection state. -/
theorem registryOperationsIgnoreTheConnectionState : Obligations.RegistryOperationsIgnoreTheConnectionState := by
  unfold Obligations.RegistryOperationsIgnoreTheConnectionState
  intro s c i hreg
  refine ⟨fun hi => reg_next_or_refused hi hreg, (reg_setConn hreg c s).trans ?_⟩
  cases exec i s <;> rfl

end Sys2Proof.Machine
end

section
/-! PROOFS. The frame codec (41_frame_codec.md): an equation for each end of SERIALIZE, PARSE by its type byte, the
records of a DATA section read back, and a frame fed byte by byte through the Receive Assembler (R197). -/

namespace Sys2Proof.Machine

/-! ### Frames on the wire (30_encoding.md R110) -/

@[simp] theorem wireFrame_length (cfg : Config) (type : Byte) (d : List Byte) :
    (wireFrame cfg type d).length = 11 + d.length := by
  simp only [wireFrame, List.length_append, List.length_cons, List.length_nil, Vector.length_toList]
  omega

theorem wireFrame_nil (cfg : Config) (type : Byte) :
    wireFrame cfg type [] = [type, 0, 0] ++ cfg.hdrReserved.toList ++ [0x24, 0x25, 0x26] := by
  rw [wireFrame, List.append_nil]
  rfl

/-- The length field of a frame on the wire is its data section's length, where that has 16 bits (R112). -/
theorem rdLe16_wireFrame (cfg : Config) (type : Byte) {d : List Byte} (h : d.length ≤ 65535) :
    rdLe16 (wireFrame cfg type d) 1 = d.length := by
  have hcut : wireFrame cfg type d =
      type :: (le16 d.length ++ (cfg.hdrReserved.toList ++ d ++ [0x24, 0x25, 0x26])) := by
    simp only [wireFrame, le16, List.append_assoc, List.cons_append, List.nil_append]
  rw [hcut, rdLe16_le16 _ _ _ (by omega)]

theorem frameTypeCode_injective : Function.Injective frameTypeCode := fun T U h =>
  Option.some.inj (by rw [← frameTypeOf_code T, h, frameTypeOf_code])

/-! ### The ends of SERIALIZE (R189 to R193) -/

theorem serialize_unsupported (s : State) {type : Byte} (h : type.toNat = 0 ∨ 8 ≤ type.toNat) :
    serialize s type = .next (.error .unsupportedFrameType) := by
  rw [serialize, frameTypeOf_eq_none.2 h]

theorem serialize_code (s : State) (T : FrameType) : serialize s (frameTypeCode T) = serializeType s T := by
  rw [serialize, frameTypeOf_code]

section Lengths

variable {s : State} {T : FrameType}

theorem serialize_overflow (h : 65535 < dataLen s.S T) :
    serialize s (frameTypeCode T) = .next (.error .lengthOverflow) := by
  rw [serialize_code]
  exact if_pos h

theorem serialize_tooSmall (h : dataLen s.S T ≤ 65535) (hb : s.cfg.txBufferSize < 11 + dataLen s.S T) :
    serialize s (frameTypeCode T) = .next (.error .bufferTooSmall) := by
  rw [serialize_code]
  exact (if_neg (Nat.not_lt.2 h)).trans (if_pos hb)

theorem serialize_fits (h : dataLen s.S T ≤ 65535) (hb : 11 + dataLen s.S T ≤ s.cfg.txBufferSize) :
    serialize s (frameTypeCode T) =
      andThen (dataBytes s T) fun d => .next (.frame (frameBytes s.cfg T (dataLen s.S T) d)) := by
  rw [serialize_code]
  exact (if_neg (Nat.not_lt.2 h)).trans (if_neg (Nat.not_lt.2 hb))

end Lengths

/-- SERIALIZE's answer stands in the transmit buffer (20_memory.md R82; log 5). -/
theorem serializeInto_of_serialize {s : State} {type : Byte} {r : CodecResult} (h : serialize s type = .next r) :
    serializeInto type s = .next { s with txBuf := some r } :=
  serializeInto_eq_next.2 ⟨r, h, rfl⟩

/-- SERIALIZE of a type whose data section is empty. -/
theorem serializeInto_empty {s : State} {T : FrameType} (h : dataBytes s T = .next []) :
    serializeInto (frameTypeCode T) s = .next { s with txBuf := some (if 11 ≤ s.cfg.txBufferSize then
      .frame ([frameTypeCode T, 0, 0] ++ s.cfg.hdrReserved.toList ++ [0x24, 0x25, 0x26])
      else .error .bufferTooSmall) } := by
  rw [← wireFrame_nil]
  exact serializeInto_of_serialize (serialize_control [] h (Nat.zero_le 1))

/-! ### The data section of DATA (30_encoding.md R120, R121) -/

theorem dataBytes_data_answers {s : State} (h : ∀ i ∈ stagedIds s.S, ∀ k < (slotAt s.S i).stagedSize,
    (slotAt s.S i).base + k < 2 ^ s.cfg.addrW) :
    dataBytes s .data = .next (BitVec.ofNat 8 (stagedIds s.S).length :: (stagedIds s.S).flatMap fun i =>
      BitVec.ofNat 8 i :: (le16 (slotAt s.S i).stagedSize ++ (slotAt s.S i).dataType :: stagedBytes s i)) := by
  rw [dataBytes, dataRecords_answers h, andThen_next]

theorem dataBytes_data_refused {s : State} (h : ∃ i ∈ stagedIds s.S, ∃ k < (slotAt s.S i).stagedSize,
    2 ^ s.cfg.addrW ≤ (slotAt s.S i).base + k) : ∃ a, dataBytes s .data = .refused (.bufAddressOutOfRange a) := by
  obtain ⟨a, ha⟩ := dataRecords_refused h
  exact ⟨a, by rw [dataBytes, ha, andThen_refused]⟩

@[simp] theorem stagedBytes_length (s : State) (i : Nat) : (stagedBytes s i).length = (slotAt s.S i).stagedSize := by
  rw [stagedBytes, List.length_map, List.length_range]

theorem dataRecord_eq {s : State} {i : Nat} {d : List Byte} (h : dataRecord s i = .next d) :
    d = BitVec.ofNat 8 i :: (le16 (slotAt s.S i).stagedSize ++ (slotAt s.S i).dataType :: stagedBytes s i) := by
  obtain ⟨sample, hread, rfl⟩ := dataRecord_spec h
  rw [(readBytes_spec hread).1, stagedBytes]

/-- A reader takes one record off the front of the records. -/
theorem readRecords_cons (n : Nat) (id ty : Byte) {size : Nat} {sample : List Byte} (ds : List Byte)
    (hl : sample.length = size) (h : size ≤ 65535) :
    readRecords (n + 1) (id :: (le16 size ++ ty :: sample) ++ ds) =
      (readRecords n ds).map (⟨id, size, ty, sample⟩ :: ·) := by
  have hsize : (BitVec.ofNat 8 size).toNat + 256 * (BitVec.ofNat 8 (size / 256)).toNat = size := by
    simp only [BitVec.toNat_ofNat]
    omega
  have hlong : ¬(sample ++ ds).length < size := by rw [List.length_append]; omega
  simp only [le16, List.cons_append, List.nil_append, readRecords, hsize, if_neg hlong, List.drop_left' hl,
    List.take_left' hl]

/-- The records SERIALIZE writes are read back slot by slot. -/
theorem readRecords_dataRecords {s : State} {l : List Nat} {ds : List Byte} (h : dataRecords s l = .next ds)
    (hl : ds.length ≤ 65535) : readRecords l.length ds = some (l.map (slotRecord s)) := by
  induction l generalizing ds with
  | nil =>
    cases h
    rfl
  | cons i l ih =>
    obtain ⟨d, hd, h⟩ := andThen_eq_next.1 h
    obtain ⟨rest, hrest, h⟩ := andThen_eq_next.1 h
    cases h
    have hlen := dataRecord_length hd
    rw [List.length_append] at hl
    rw [dataRecord_eq hd, List.length_cons, readRecords_cons _ _ _ _ (stagedBytes_length s i) (by omega),
      ih hrest (by omega)]
    rfl

/-! ### PARSE (R195) -/

theorem parse_truncated {f : List Byte} (h : f.length < 11) : parse f = .error .truncated := if_pos h

theorem parse_unsupported {f : List Byte} (h : 11 ≤ f.length) (hT : frameTypeOf (byteAt f 0) = none) :
    parse f = .error .unsupportedFrameType := by
  rw [parse, if_neg (Nat.not_lt.2 h), hT]

theorem parse_supported {f : List Byte} {T : FrameType} (h : 11 ≤ f.length) (hT : frameTypeOf (byteAt f 0) = some T) :
    parse f = .frame ⟨T, rdLe16 f 1, (f.drop 8).take (f.length - 11)⟩ := by
  rw [parse, if_neg (Nat.not_lt.2 h), hT]

theorem frameTypeOf_supported {b : Byte} (h1 : 1 ≤ b.toNat) (h7 : b.toNat ≤ 7) : ∃ T, frameTypeOf b = some T := by
  cases hT : frameTypeOf b with
  | some T => exact ⟨T, rfl⟩
  | none =>
    have := frameTypeOf_eq_none.1 hT
    omega

/-! ### Received bytes, one at a time (42_receive_assembler.md R210 to R214) -/

/-- What accumulating bytes leaves as it was: everything but the Receive Assembler's fields. -/
structure SameOutsideReceive (s t : State) : Prop where
  link : SameLink s.S t.S
  registry : SameRegistry s.S t.S
  buf : t.buf = s.buf
  rest : SameRest s t
  outputs : Outputs s t []

theorem SameOutsideReceive.refl (s : State) : SameOutsideReceive s s :=
  ⟨⟨rfl, rfl, rfl, rfl, rfl, rfl⟩, ⟨fun _ => rfl, rfl, rfl⟩, rfl, ⟨rfl, rfl, rfl⟩, (List.append_nil _).symm⟩

theorem SameOutsideReceive.trans {s t u : State} (h : SameOutsideReceive s t) (h' : SameOutsideReceive t u) :
    SameOutsideReceive s u := by
  obtain ⟨⟨c, uh, ur, run, tot, ini⟩, ⟨sl, ec, rs⟩, b, ⟨inp, cfg, tx⟩, out⟩ := h
  obtain ⟨⟨c', uh', ur', run', tot', ini'⟩, ⟨sl', ec', rs'⟩, b', ⟨inp', cfg', tx'⟩, out'⟩ := h'
  refine ⟨⟨c'.trans c, uh'.trans uh, ur'.trans ur, run'.trans run, tot'.trans tot, ini'.trans ini⟩,
    ⟨fun i => (sl' i).trans (sl i), ec'.trans ec, rs'.trans rs⟩, b'.trans b,
    ⟨inp'.trans inp, cfg'.trans cfg, tx'.trans tx⟩, ?_⟩
  unfold Outputs at *
  rw [out', out, List.append_nil, List.append_nil]

theorem SameOutsideReceive.initialized {s t : State} (h : SameOutsideReceive s t) :
    t.S.initialized = s.S.initialized := by
  obtain ⟨-, -, -, -, -, hinit⟩ := h.link
  exact hinit

theorem SameOutsideReceive.leaveReceive {s t : State} (h : SameOutsideReceive s t) :
    SameOutsideReceive s (leaveReceive t) :=
  ⟨h.link, h.registry, h.buf, h.rest, h.outputs⟩

theorem sameOutsideReceive_accumulated (b : Byte) (s : State) : SameOutsideReceive s (accumulated b s) := by
  obtain ⟨-, -, hlink, hslots, hcount, hsize, hbuf, hrest, htrace⟩ := accumulated_spec b s
  exact ⟨hlink, ⟨slotAt_congr hslots, hcount, hsize⟩, hbuf, hrest, htrace.trans (List.append_nil _).symm⟩

/-- The terminator stands at the end, after at least 8 bytes (R212). -/
def EndsFrame (bs : List Byte) : Prop := 11 ≤ bs.length ∧ bs.drop (bs.length - 3) = [0x24, 0x25, 0x26]

theorem terminated_accumulated (b : Byte) (s : State) :
    terminated (accumulated b s).S = true ↔ EndsFrame (nextReceived b s.S) := by
  rw [terminated_eq, (accumulated_spec b s).1, EndsFrame]

/-- RX_BYTE of a byte that ends no frame: it is accumulated, reception is armed again. -/
theorem exec_rxByte_accumulates {b : Byte} {s : State} (hi : s.S.initialized = true) (ha : s.S.rxArmed = true)
    (h : ¬EndsFrame (nextReceived b s.S)) : exec (.rxByte b) s = .next (leaveReceive (accumulated b s)) := by
  rw [exec, execRxByte_eq hi ha, if_neg (mt (terminated_accumulated b s).1 h), andThen_next]

/-- RX_BYTE of a byte that ends a frame: FRAME_RECEIVED has it whole, then the buffer is cleared and armed (R213). -/
theorem exec_rxByte_delivers {b : Byte} {s : State} (hi : s.S.initialized = true) (ha : s.S.rxArmed = true)
    (h : EndsFrame (nextReceived b s.S)) :
    exec (.rxByte b) s = andThen (frameReceived (nextReceived b s.S) (accumulated b s)) fun t =>
      .next (leaveReceive (setSession (clearRx t.S) t)) := by
  rw [exec, execRxByte_eq hi ha, if_pos ((terminated_accumulated b s).2 h), deliver, (accumulated_spec b s).1,
    andThen_assoc]
  rfl

theorem nextReceived_of_lt (b : Byte) {S : Session} {bs : List Byte} (h : received S = bs) (hl : bs.length < 1023) :
    nextReceived b S = bs ++ [b] := by
  rw [← h, received_length] at hl
  rw [nextReceived, if_neg (by omega), h]

theorem execAll_append (is js : List Instr) (s : State) :
    execAll (is ++ js) s = andThen (execAll is s) (execAll js) := by
  induction is generalizing s with
  | nil => rfl
  | cons i is ih =>
    rw [List.cons_append, execAll, execAll, andThen_assoc]
    exact congrArg (andThen (exec i s)) (funext ih)

theorem feed_concat (bs : List Byte) (b : Byte) (s : State) :
    feed (bs ++ [b]) s = andThen (feed bs s) (exec (.rxByte b)) := by
  have hone : execAll [.rxByte b] = exec (.rxByte b) := funext fun t => by
    rw [execAll]
    cases exec (.rxByte b) t <;> rfl
  rw [feed, List.map_append, execAll_append]
  exact congrArg _ hone

/-- Bytes that end a frame at no count, fed into an empty buffer, stand there, and nothing else has happened. -/
theorem feed_accumulates {s : State} (hi : s.S.initialized = true) (ha : s.S.rxArmed = true)
    (h0 : s.S.rxIdx.val = 0) {bs : List Byte} (hl : bs.length ≤ 1023) (hn : ∀ c ≤ bs.length, ¬EndsFrame (bs.take c)) :
    ∃ t, feed bs s = .next t ∧ received t.S = bs ∧ t.S.rxArmed = true ∧ SameOutsideReceive s t := by
  induction bs using List.reverseRecOn with
  | nil =>
    have hempty : received s.S = [] := List.length_eq_zero_iff.1 (by rw [received_length, h0])
    exact ⟨s, rfl, hempty, ha, .refl s⟩
  | append_singleton bs b ih =>
    rw [List.length_append, List.length_singleton] at hl hn
    have hall : ¬EndsFrame (bs ++ [b]) := by
      have := hn (bs.length + 1) (Nat.le_refl _)
      rwa [List.take_of_length_le (by rw [List.length_append, List.length_singleton])] at this
    obtain ⟨t, ht, hrec, harmed, hsame⟩ := ih (by omega) fun c hc => by
      have := hn c (by omega)
      rwa [List.take_append_of_le_length hc] at this
    have hnext : nextReceived b t.S = bs ++ [b] := nextReceived_of_lt b hrec (by omega)
    refine ⟨leaveReceive (accumulated b t), ?_, (accumulated_spec b t).1.trans hnext, rfl,
      (hsame.trans (sameOutsideReceive_accumulated b t)).leaveReceive⟩
    rw [feed_concat, ht, andThen_next]
    exact exec_rxByte_accumulates (hsame.initialized.trans hi) harmed (by rw [hnext]; exact hall)

/-! ### The statements -/

/-- Settles O27: the section is a count byte and one record for each staged slot, and a record's size field and bytes
are exactly what the reader takes off. -/
theorem dataFrameRecordsReadBack : Obligations.DataFrameRecordsReadBack := by
  unfold Obligations.DataFrameRecordsReadBack
  intro s f h
  obtain ⟨T, d, hT, hd, rfl, -, hlen, -⟩ := serialize_eq_frame h
  obtain rfl : T = .data := frameTypeCode_injective hT.symm
  obtain ⟨ds, hds, hcons⟩ := andThen_eq_next.1 hd
  cases hcons
  refine ⟨_, parse_wireFrame s.cfg .data _ hlen, ?_⟩
  have hcount : (BitVec.ofNat 8 (stagedIds s.S).length).toNat = (stagedIds s.S).length := by
    have := stagedIds_length_le s.S
    rw [BitVec.toNat_ofNat, Nat.mod_eq_of_lt (by omega)]
  change readRecords (BitVec.ofNat 8 (stagedIds s.S).length).toNat ds = some ((stagedIds s.S).map (slotRecord s))
  rw [hcount]
  rw [List.length_cons] at hlen
  exact readRecords_dataRecords hds (by omega)

/-- Settles O50: all bytes but the last accumulate, by induction over them, and the last one delivers. -/
theorem fedFrameIsDeliveredWhole : Obligations.FedFrameIsDeliveredWhole := by
  unfold Obligations.FedFrameIsDeliveredWhole
  intro s f hi ha h0 h11 h1023 hend hearly
  obtain ⟨bs, b, rfl⟩ : ∃ bs b, f = bs ++ [b] :=
    (List.eq_nil_or_concat' f).resolve_left fun hnil => by subst hnil; cases h11
  have hlen : (bs ++ [b]).length = bs.length + 1 := List.length_append
  have hnone : ∀ c ≤ bs.length, ¬EndsFrame (bs.take c) := by
    rintro c hc ⟨hc11, hcend⟩
    rw [List.length_take_of_le hc] at hc11 hcend
    exact hearly c hc11 (by omega) (by rw [List.take_append_of_le_length hc]; exact hcend)
  obtain ⟨t, ht, hrec, harmed, hsame⟩ := feed_accumulates hi ha h0 (by omega) hnone
  have hnext : nextReceived b t.S = bs ++ [b] := nextReceived_of_lt b hrec (by omega)
  obtain ⟨hlink, hregistry, hbuf, hrest, hout⟩ := hsame.trans (sameOutsideReceive_accumulated b t)
  obtain ⟨hreceived, hmasked, -⟩ := accumulated_spec b t
  refine ⟨accumulated b t, hreceived.trans hnext, hmasked, hlink, hregistry, hbuf, hrest, hout, ?_⟩
  have hlast : EndsFrame (nextReceived b t.S) := by rw [hnext]; exact ⟨h11, hend⟩
  rw [feed_concat, ht, andThen_next, exec_rxByte_delivers (hsame.initialized.trans hi) harmed hlast, hnext]
  cases frameReceived (bs ++ [b]) (accumulated b t) <;> rfl

/-- Settles O22: the two length failures, a refused read, or the frame of the records. -/
theorem serializeOfData : Obligations.SerializeOfData := by
  unfold Obligations.SerializeOfData
  intro s P n
  have hP : P = stagedIds s.S := rfl
  have hn : n = dataLen s.S .data := rfl
  rw [hP, hn]
  refine ⟨fun hover => ?_, fun hle hsmall => ?_, fun hle hfits hout => ?_, fun hle hfits hin => ?_⟩
  · exact serializeInto_of_serialize (serialize_overflow hover)
  · exact serializeInto_of_serialize (serialize_tooSmall hle hsmall)
  · obtain ⟨a, ha⟩ := dataBytes_data_refused hout
    refine ⟨a, ?_⟩
    change serializeInto (frameTypeCode .data) s = _
    rw [serializeInto, serialize_fits hle hfits, ha]
    rfl
  · have hd := dataBytes_data_answers hin
    have hframe := serialize_fits hle hfits
    rw [hd, andThen_next, ← dataBytes_length hd, frameBytes_eq_wireFrame] at hframe
    exact serializeInto_of_serialize hframe

/-- Settles O24, by the layout of a frame on the wire and the lengths SERIALIZE checks. -/
theorem serializedFramesAreSelfConsistent : Obligations.SerializedFramesAreSelfConsistent := by
  unfold Obligations.SerializedFramesAreSelfConsistent
  intro s type f h
  obtain ⟨T, d, -, -, rfl, -, hlen, hfits⟩ := serialize_eq_frame h
  have hf := wireFrame_length s.cfg type d
  exact ⟨d, rfl, (rdLe16_wireFrame s.cfg type hlen).symm, hf, by omega, by omega⟩

/-- Settles O26: the frame is on the wire with its own type, whose code names no other. -/
theorem parseRecoversASerializedFrame : Obligations.ParseRecoversASerializedFrame := by
  unfold Obligations.ParseRecoversASerializedFrame
  intro s T f h
  obtain ⟨-, d, -, -, rfl, -, hlen, -⟩ := serialize_eq_frame h
  exact ⟨d, rfl, parse_wireFrame s.cfg T d hlen⟩

/-- Settles O20: the five types have an empty data section. -/
theorem serializeOfEmptySections : Obligations.SerializeOfEmptySections := by
  unfold Obligations.SerializeOfEmptySections
  intro s
  exact ⟨serializeInto_empty (T := .sync) rfl, serializeInto_empty (T := .ack) rfl,
    serializeInto_empty (T := .request) rfl, serializeInto_empty (T := .stop) rfl,
    serializeInto_empty (T := .drop) rfl⟩

/-- Settles O21: the data section is the one byte `totalChannels`. -/
theorem serializeOfSyncResp : Obligations.SerializeOfSyncResp := by
  unfold Obligations.SerializeOfSyncResp
  intro s
  have hwire : wireFrame s.cfg 2 [BitVec.ofNat 8 s.S.totalChannels.val] =
      [2, 1, 0] ++ s.cfg.hdrReserved.toList ++ [BitVec.ofNat 8 s.S.totalChannels.val, 0x24, 0x25, 0x26] := by
    simp [wireFrame]
  have h := serializeInto_of_serialize (serialize_syncResp s)
  rw [hwire] at h
  exact h

/-- Settles O23: the code names no frame type. -/
theorem serializeOfUnsupportedCodes : Obligations.SerializeOfUnsupportedCodes := by
  unfold Obligations.SerializeOfUnsupportedCodes
  exact fun s type h => serializeInto_of_serialize (serialize_unsupported s h)

/-- Settles O25, by the length and then the type byte. -/
theorem parseFollowsItsRule : Obligations.ParseFollowsItsRule := by
  unfold Obligations.ParseFollowsItsRule
  refine fun f => ⟨parse_truncated, fun hlen htype => parse_unsupported hlen (frameTypeOf_eq_none.2 htype),
    fun hlen h1 h7 => ?_⟩
  obtain ⟨T, hT⟩ := frameTypeOf_supported h1 h7
  exact ⟨_, parse_supported hlen hT, (frameTypeOf_eq_some hT).symm, rfl⟩

end Sys2Proof.Machine
end

section
/-! PROOFS. The Receive Assembler (42_receive_assembler.md): one byte that ends no frame, one that ends a frame, the
overflow discard, and fewer bytes than a frame has. -/

namespace Sys2Proof.Machine

/-! ### Too short to end a frame (R212, R216) -/

theorem not_endsFrame_of_lt {bs : List Byte} (h : bs.length < 11) : ¬EndsFrame bs :=
  fun ⟨h11, _⟩ => Nat.not_lt.2 h11 h

/-! ### The overflow discard (R211) -/

theorem nextReceived_of_full (b : Byte) {S : Session} (h : S.rxIdx.val = 1023) : nextReceived b S = [b] :=
  if_pos h

/-- The discard comes before the store: the byte is written into a buffer of zeros. -/
theorem accumulate_of_full (b : Byte) {S : Session} (h : S.rxIdx.val = 1023) :
    accumulate b S = appendRx b (clearRx S) := by
  rw [accumulate, if_pos (show S.rxIdx.val = recvBufferSize - 1 from h)]

theorem accumulate_toList_of_full (b : Byte) {S : Session} (h : S.rxIdx.val = 1023) :
    (accumulate b S).rxBuf.toList = b :: List.replicate 1023 0 := by
  rw [accumulate_of_full b h, appendRx_toList, clearRx_idx, clearRx_rxBuf, Vector.toList_replicate,
    List.replicate_succ, List.set_cons_zero]

/-! ### The statements -/

/-- Settles O46: the byte is accumulated, and the Receive Assembler alone sees it. -/
theorem rxByteAccumulates : Obligations.RxByteAccumulates := by
  unfold Obligations.RxByteAccumulates
  intro s b hi ha acc hn
  have hreceived : received (leaveReceive (accumulated b s)).S = acc := (accumulated_spec b s).1
  obtain ⟨hlink, hregistry, hbuf, hrest, hout⟩ := (sameOutsideReceive_accumulated b s).leaveReceive
  refine ⟨leaveReceive (accumulated b s), exec_rxByte_accumulates hi ha hn, hreceived, ?_, rfl, hlink, hregistry,
    hbuf, hrest, hout⟩
  rw [← received_length, hreceived]

/-- Settles O47: the frame is handled in the state where its last byte is accumulated and reception is masked. -/
theorem rxByteDeliversATerminatedFrame : Obligations.RxByteDeliversATerminatedFrame := by
  unfold Obligations.RxByteDeliversATerminatedFrame
  intro s b hi ha acc h11 hend
  obtain ⟨hreceived, hmasked, -⟩ := accumulated_spec b s
  obtain ⟨hlink, hregistry, hbuf, hrest, hout⟩ := sameOutsideReceive_accumulated b s
  refine ⟨accumulated b s, hreceived, hmasked, hlink, hregistry, hbuf, hrest, hout, ?_⟩
  have hacc : nextReceived b s.S = acc := rfl
  rw [exec_rxByte_delivers hi ha ⟨h11, hend⟩, hacc]
  cases frameReceived acc (accumulated b s) <;> rfl

/-- Settles O48: one byte ends no frame, and it is stored into the cleared buffer. -/
theorem overflowDiscardsBeforeStoring : Obligations.OverflowDiscardsBeforeStoring := by
  unfold Obligations.OverflowDiscardsBeforeStoring
  intro s b hi ha hfull
  have hnext : nextReceived b s.S = [b] := nextReceived_of_full b hfull
  have hone : ¬EndsFrame (nextReceived b s.S) := not_endsFrame_of_lt (by simp [hnext])
  have hidx : (accumulated b s).S.rxIdx.val = 1 := by
    rw [← received_length, (accumulated_spec b s).1, hnext, List.length_singleton]
  obtain ⟨hlink, hregistry, hbuf, hrest, hout⟩ := (sameOutsideReceive_accumulated b s).leaveReceive
  exact ⟨leaveReceive (accumulated b s), exec_rxByte_accumulates hi ha hone, hidx,
    accumulate_toList_of_full (S := (enterReceive s).S) b hfull, rfl, hlink, hregistry, hbuf, hrest, hout⟩

/-- Settles O49: no prefix of fewer than 11 bytes ends a frame, so all of them accumulate. -/
theorem fewerThanElevenBytesDeliverNothing : Obligations.FewerThanElevenBytesDeliverNothing := by
  unfold Obligations.FewerThanElevenBytesDeliverNothing
  intro s bs hi ha h0 hlen
  have hnone : ∀ c ≤ bs.length, ¬EndsFrame (bs.take c) := fun c hc =>
    not_endsFrame_of_lt ((List.length_take_le c bs).trans_lt (hc.trans_lt hlen))
  obtain ⟨t, ht, hrec, harmed, ⟨hlink, hregistry, hbuf, hrest, hout⟩⟩ := feed_accumulates hi ha h0 (by omega) hnone
  exact ⟨t, ht, hrec, harmed, hlink, hregistry, hbuf, hrest, hout⟩

end Sys2Proof.Machine
end

section
/-! PROOFS. The received frames (43_state_machine.md R231, R234 to R241): the row a type byte decodes to, what each row
does in each connection state, and FRAME_RECEIVED over the rows. -/

namespace Sys2Proof.Machine

/-! ### The row of a type byte (R231) -/

theorem decode_frameRx_cons (cfg : Config) (type : Byte) {bs : List Byte} (h : 10 ≤ bs.length) :
    decode cfg .frameRx (type :: bs) = .ok (rxInstr type (rxFrameOf (type :: bs)), []) :=
  if_neg (by rw [List.length_cons]; omega)

theorem length_of_decodeFrame_ok {f rest : List Byte} {i : Instr} (h : decodeFrame f = .ok (i, rest)) :
    11 ≤ f.length := by
  unfold decodeFrame at h
  split at h
  · cases h
  · omega

/-- A row run by itself is the handling of its frame type; the rows PARSE rejects do nothing. -/
theorem exec_rxInstr (type : Byte) (f : RxFrame) (s : State) :
    exec (rxInstr type f) s = handleType (frameTypeOf type) s := by
  unfold rxInstr
  split
  case h_1 h0 => rw [frameTypeOf_eq_none.2 (.inl h0)]; rfl
  case h_9 =>
    have hres : 8 ≤ type.toNat := by simp only [imp_false] at *; omega
    rw [frameTypeOf_eq_none.2 (.inr hres)]
    rfl
  all_goals next h => rw [frameTypeOf, h]; rfl

/-! ### The transmissions of the rows (R232) -/

theorem serialize_empty {s : State} {T : FrameType} (h : dataBytes s T = .next []) :
    serialize s (frameTypeCode T) = .next
      (if 11 ≤ s.cfg.txBufferSize then .frame (wireFrame s.cfg (frameTypeCode T) []) else .error .bufferTooSmall) :=
  serialize_control [] h (Nat.zero_le 1)

/-- Only DATA reads `BUF`: SERIALIZE of any other type answers whatever is staged. -/
theorem serialize_answers_of_data_readable {s : State} {T : FrameType} (h : T = .data → StagedReadable s) :
    ∃ r, serialize s (frameTypeCode T) = .next r := by
  cases T with
  | data => exact serialize_answers _ (h rfl)
  | syncResp => exact ⟨_, serialize_syncResp s⟩
  | sync | ack | request | stop | drop => exact ⟨_, serialize_empty rfl⟩

/-- The transmission of SYNC_RESP (41_frame_codec.md R183): its frame has 12 bytes. -/
def syncRespOutput (s : State) : Output :=
  if 12 ≤ s.cfg.txBufferSize then .tx (wireFrame s.cfg 2 [BitVec.ofNat 8 s.S.totalChannels.val])
  else .err .bufferTooSmall

theorem transmit_syncResp (s : State) :
    transmit .syncResp s = .next (emit (syncRespOutput s) (setTxBuf none s)) := by
  refine transmit_eq_next.2 ⟨_, serialize_syncResp s, ?_⟩
  rw [apply_ite sentOutput]
  rfl

/-! ### SYNC and DROP (R234, R240) -/

theorem onSync_of_idle {s : State} (h : s.S.conn = .idle) :
    onSync s = .next (emit (syncRespOutput s) (setTxBuf none (setConn .sync s))) := by
  rw [onSync, h]
  exact transmit_syncResp (setConn .sync s)

theorem onSync_of_ne_idle {s : State} (h : s.S.conn ≠ .idle) : onSync s = .next s := by
  unfold onSync
  split
  · exact absurd ‹_› h
  all_goals rfl

/-- DROP answers with the acknowledgment of its type, after the signal Stop where it ends a transmission. -/
theorem onDrop_of_serialize {s : State} {r : CodecResult}
    (h : serialize s (frameTypeCode s.cfg.dropAckType) = .next r) :
    onDrop s = .next { s with
      S := { s.S with conn := .idle }
      txBuf := none
      trace := s.trace ++ ((if s.S.conn = .transmitting then [.sig .stop] else []) ++ [sentOutput r]) } := by
  refine onDrop_eq_next.2 ⟨r, h, ?_⟩
  split <;> simp [emit, setTxBuf, setConn]

/-! ### The statements -/

/-- Settles O36: both are the handling of the type byte, after the halt service. -/
theorem frameReceivedRunsTheRowOfItsType : Obligations.FrameReceivedRunsTheRowOfItsType := by
  unfold Obligations.FrameReceivedRunsTheRowOfItsType
  intro s f i rest h
  obtain ⟨rfl, -⟩ := decodeFrame_ok h
  rw [frameReceived_eq (length_of_decodeFrame_ok h)]
  cases serviceHalt s with
  | next t => exact (exec_rxInstr _ _ t).symm
  | fault x => rfl
  | refused r => rfl

/-- Settles O37: the handling is a function of the type byte. -/
theorem frameHandlingReadsOnlyTheTypeByte : Obligations.FrameHandlingReadsOnlyTheTypeByte := by
  unfold Obligations.FrameHandlingReadsOnlyTheTypeByte
  intro s f g hf hg htype
  rw [frameReceived_eq hf, frameReceived_eq hg, htype]

/-- Settles O33: SERIALIZE answers for the acknowledgment's type, and what it answers is known for each type. -/
theorem rxDropFollowsItsRule : Obligations.RxDropFollowsItsRule := by
  unfold Obligations.RxDropFollowsItsRule
  intro s f hread
  refine ⟨fun bs => decode_frameRx_cons s.cfg 0x07, ?_⟩
  obtain ⟨r, hr⟩ := serialize_answers_of_data_readable hread
  refine ⟨_, r, onDrop_of_serialize hr, rfl, rfl, rfl, rfl, rfl, rfl, ?_⟩
  cases hT : s.cfg.dropAckType with
  | data => rwa [hT] at hr
  | syncResp =>
    rw [hT] at hr
    exact Host.Outcome.next.inj (hr.symm.trans (serialize_syncResp s))
  | sync | ack | request | stop | drop =>
    rw [hT] at hr
    exact Host.Outcome.next.inj (hr.symm.trans (serialize_empty rfl))

/-- Settles O29: Idle answers with the SYNC_RESP, the other states ignore the frame. -/
theorem rxSyncFollowsItsRule : Obligations.RxSyncFollowsItsRule := by
  unfold Obligations.RxSyncFollowsItsRule
  intro s f
  refine ⟨fun bs => decode_frameRx_cons s.cfg 0x01, ?_⟩
  by_cases h : s.S.conn = .idle
  · exact ⟨_, onSync_of_idle h, fun hn => absurd h hn, fun _ => ⟨rfl, fun _ => rfl, rfl, rfl, rfl, rfl⟩⟩
  · exact ⟨s, onSync_of_ne_idle h, fun _ => rfl, fun hi => absurd hi h⟩

/-- Settles O30, by the two cases of RxAck. -/
theorem rxAckFollowsItsRule : Obligations.RxAckFollowsItsRule := by
  unfold Obligations.RxAckFollowsItsRule
  intro s f
  refine ⟨fun bs => decode_frameRx_cons s.cfg 0x03, ?_⟩
  rcases onAck_cases s with ⟨hc, he⟩ | ⟨hc, he⟩
  · exact ⟨fun _ => congrArg _ he, fun hn => absurd hc hn⟩
  · exact ⟨fun hs => absurd hs hc, fun _ => congrArg _ he⟩

/-- Settles O31, by the two cases of RxRequest. -/
theorem rxRequestFollowsItsRule : Obligations.RxRequestFollowsItsRule := by
  unfold Obligations.RxRequestFollowsItsRule
  intro s f
  refine ⟨fun bs => decode_frameRx_cons s.cfg 0x04, ?_⟩
  rcases onRequest_cases s with ⟨hc, he⟩ | ⟨hc, he⟩
  · exact ⟨fun _ => congrArg _ he, fun hn => absurd hc hn⟩
  · exact ⟨fun hs => absurd hs hc, fun _ => congrArg _ he⟩

/-- Settles O32, by the two cases of RxStop. -/
theorem rxStopFollowsItsRule : Obligations.RxStopFollowsItsRule := by
  unfold Obligations.RxStopFollowsItsRule
  intro s f
  refine ⟨fun bs => decode_frameRx_cons s.cfg 0x06, ?_⟩
  rcases onStop_cases s with ⟨hc, he⟩ | ⟨hc, he⟩
  · exact ⟨fun _ => congrArg _ he, fun hn => absurd hc hn⟩
  · exact ⟨fun hs => absurd hs hc, fun _ => congrArg _ he⟩

/-- Settles O34: the two rows' meaning is to answer with the same state. -/
theorem syncRespAndDataFramesAreIgnored : Obligations.SyncRespAndDataFramesAreIgnored := by
  unfold Obligations.SyncRespAndDataFramesAreIgnored
  exact fun s f => ⟨fun bs => decode_frameRx_cons s.cfg 0x02, fun bs => decode_frameRx_cons s.cfg 0x05, rfl, rfl⟩

/-- Settles O35: a type from 8 on decodes to the reserved row, and both rows answer with the same state. -/
theorem rejectedFramesAreIgnored : Obligations.RejectedFramesAreIgnored := by
  unfold Obligations.RejectedFramesAreIgnored
  refine fun s f type htype => ⟨fun bs => decode_frameRx_cons s.cfg 0x00, fun bs hbs => ?_, rfl, rfl⟩
  rw [decode_frameRx_cons s.cfg type hbs, rxInstr_reserved _ htype]

end Sys2Proof.Machine
end

section
/-! PROOFS. The halt service and the application's operations (43_state_machine.md R233, R243 to R245): the next state
of each as an equation, and the one STOP frame of a latched Halt. -/

namespace Sys2Proof.Machine

/-! ### NOTIFY_READY and NOTIFY_HALT on an initialized engine -/

theorem exec_notifyReady_of_service {s u : State} (hi : s.S.initialized = true) (hu : serviceHalt s = .next u) :
    exec .notifyReady s = .next (emit (.ret .ok) (setUserReady true u)) := by
  rw [exec, execNotifyReady, admitted_of_initialized _ hi, hu]
  rfl

theorem exec_notifyHalt_of_service {s u v : State} (hi : s.S.initialized = true) (hu : serviceHalt s = .next u)
    (hv : latchHalt u = .next v) : exec .notifyHalt s = .next (emit (.ret .ok) v) := by
  rw [exec, execNotifyHalt, admitted_of_initialized _ hi, hu, andThen_next, hv]
  rfl

/-- A serviced engine is Connected, where no Halt is latched (D15). -/
theorem latchHalt_serviced (s : State) : latchHalt (serviced s) = .next (serviced s) := rfl

theorem outputs_serviced_emit (s : State) (o : Output) :
    Outputs s (emit o (serviced s)) [stopOutput s.cfg, o] :=
  List.append_assoc _ _ _

/-! ### SEND_ALL is SERIALIZE of DATA with the answer handed over (R245) -/

theorem serialize_of_exec_txData {s : State} {r : CodecResult}
    (h : exec .txData s = .next { s with txBuf := some r }) : serialize s 5 = .next r := by
  obtain ⟨r', hr', he⟩ := serializeInto_eq_next.1 h
  obtain rfl : r = r' := Option.some.inj (congrArg State.txBuf he)
  exact hr'

theorem exec_sendAll_refused_of_txData {s : State} {x : Refusal} (hi : s.S.initialized = true)
    (h : exec .txData s = .refused x) : exec .sendAll s = .refused x := by
  change execSendAll s = _
  rw [execSendAll, admitted_of_initialized _ hi, show serializeInto (frameTypeCode .data) s = _ from h]
  rfl

/-! ### STOP frames -/

/-- Whatever bytes FRAME_RECEIVED has, the halt service runs and then a row, or nothing where PARSE rejects them. -/
theorem frameReceived_eq_handleType (f : List Byte) (s : State) :
    ∃ T, frameReceived f s = andThen (serviceHalt s) (handleType T) := by
  by_cases h : f.length < 11
  · refine ⟨none, ?_⟩
    rw [frameReceived, parse_truncated h]
    rfl
  · exact ⟨_, frameReceived_eq (Nat.not_lt.1 h) s⟩

/-- None of the outputs is a STOP frame. -/
def NoStopFrame (cfg : Config) (os : List Output) : Prop := ∀ o ∈ os, ∀ d, o ≠ .tx (wireFrame cfg 6 d)

theorem noStopFrame_nil (cfg : Config) : NoStopFrame cfg [] := fun _ h => absurd h List.not_mem_nil

theorem noStopFrame_singleton {cfg : Config} {o : Output} (h : ∀ d, o ≠ .tx (wireFrame cfg 6 d)) :
    NoStopFrame cfg [o] := fun _ ho => List.mem_singleton.1 ho ▸ h

/-- A transmission of another type outputs no STOP frame: the type byte is the frame's first. -/
theorem sentOutput_ne_stopFrame {s : State} {T : FrameType} {r : CodecResult}
    (h : serialize s (frameTypeCode T) = .next r) (hT : T ≠ .stop) (d : List Byte) :
    sentOutput r ≠ .tx (wireFrame s.cfg 6 d) := by
  intro he
  cases r with
  | error e => cases he
  | frame f =>
    obtain ⟨-, d', -, -, rfl, -⟩ := serialize_eq_frame h
    have htype : frameTypeCode T = frameTypeCode .stop := congrArg (byteAt · 0) (Output.tx.inj he)
    exact hT (frameTypeCode_injective htype)

theorem onAck_trace (s : State) : (onAck s).trace = s.trace := by
  rcases onAck_cases s with ⟨-, he⟩ | ⟨-, he⟩ <;> rw [he]
  rfl

/-- The rows of the received frames transmit SYNC_RESP and the DROP acknowledgment only. -/
theorem handleType_noStopFrame {T : Option FrameType} {s t : State} (h : handleType T s = .next t)
    (hack : s.cfg.dropAckType ≠ .stop) : ∃ os, Outputs s t os ∧ NoStopFrame s.cfg os := by
  have quiet : t.trace = s.trace → ∃ os, Outputs s t os ∧ NoStopFrame s.cfg os := fun ht =>
    ⟨[], ht.trans (List.append_nil _).symm, noStopFrame_nil _⟩
  have one : ∀ o, t.trace = s.trace ++ [o] → (∀ d, o ≠ .tx (wireFrame s.cfg 6 d)) →
      ∃ os, Outputs s t os ∧ NoStopFrame s.cfg os := fun o ho hne => ⟨[o], ho, noStopFrame_singleton hne⟩
  cases T with
  | none => obtain rfl := Host.Outcome.next.inj h; exact quiet rfl
  | some T =>
    cases T with
    | syncResp | data => obtain rfl := Host.Outcome.next.inj h; exact quiet rfl
    | sync =>
      rcases onSync_eq_next h with ⟨-, r, hr, rfl⟩ | ⟨-, rfl⟩
      · exact one _ rfl (sentOutput_ne_stopFrame hr (by decide))
      · exact quiet rfl
    | ack => obtain rfl := Host.Outcome.next.inj h; exact quiet (onAck_trace s)
    | request =>
      obtain rfl := Host.Outcome.next.inj h
      rcases onRequest_cases s with ⟨-, he⟩ | ⟨-, he⟩ <;> rw [he] at one quiet ⊢
      · exact one (.sig .start) rfl (by simp)
      · exact quiet rfl
    | stop =>
      obtain rfl := Host.Outcome.next.inj h
      rcases onStop_cases s with ⟨-, he⟩ | ⟨-, he⟩ <;> rw [he] at one quiet ⊢
      · exact one (.sig .stop) rfl (by simp)
      · exact quiet rfl
    | drop =>
      obtain ⟨r, hr, -⟩ := onDrop_eq_next.1 h
      obtain rfl := Host.Outcome.next.inj ((onDrop_of_serialize hr).symm.trans h)
      refine ⟨_, rfl, fun o ho => ?_⟩
      rcases List.mem_append.1 ho with ho | ho
      · obtain rfl : o = .sig .stop := by
          split at ho
          · exact List.mem_singleton.1 ho
          · exact absurd ho List.not_mem_nil
        simp
      · exact noStopFrame_singleton (sentOutput_ne_stopFrame hr hack) o ho

/-! ### The statements -/

/-- Settles O38: the service is due, or it does nothing. -/
theorem haltServiceFollowsItsRule : Obligations.HaltServiceFollowsItsRule := by
  unfold Obligations.HaltServiceFollowsItsRule
  intro s
  refine ⟨fun hc hh => ⟨serviced s, serviceHalt_due hc hh, rfl, rfl, rfl, rfl, rfl, rfl⟩, fun h => ?_⟩
  exact serviceHalt_idle fun ⟨hc, hh⟩ => h.elim (· hc) fun hn => by rw [hh] at hn; cases hn

/-- Settles O39, by the two cases of the halt service. -/
theorem notifyReadyFollowsItsRule : Obligations.NotifyReadyFollowsItsRule := by
  unfold Obligations.NotifyReadyFollowsItsRule
  intro s hi
  rcases serviceHalt_cases s with ⟨hc, hh, hu⟩ | ⟨hidle, hu⟩
  · refine ⟨_, exec_notifyReady_of_service hi hu, rfl, rfl, rfl, ?_⟩
    rw [if_pos ⟨hc, hh⟩]
    exact ⟨rfl, rfl, outputs_serviced_emit s _⟩
  · refine ⟨_, exec_notifyReady_of_service hi hu, rfl, rfl, rfl, ?_⟩
    rw [if_neg hidle]
    exact ⟨rfl, rfl, rfl⟩

/-- Settles O40: an earlier Halt is serviced and the new one ignored, or the new one is latched as HALT_SERVICE says. -/
theorem notifyHaltFollowsItsRule : Obligations.NotifyHaltFollowsItsRule := by
  unfold Obligations.NotifyHaltFollowsItsRule
  intro s hi
  rcases serviceHalt_cases s with ⟨hc, hh, hu⟩ | ⟨hidle, hu⟩
  · refine ⟨_, exec_notifyHalt_of_service hi hu (latchHalt_serviced s), rfl, rfl, rfl, ?_⟩
    rw [if_pos ⟨hc, .inl hh⟩]
    exact ⟨rfl, rfl, outputs_serviced_emit s _⟩
  rcases latchHalt_cases s with ⟨hc, hv⟩ | ⟨hc, hmode, hv⟩ | ⟨hc, hmode, hv⟩
  · refine ⟨_, exec_notifyHalt_of_service hi hu hv, rfl, rfl, rfl, ?_⟩
    rw [if_neg fun h => hc h.1, if_neg hc]
    exact ⟨rfl, rfl, rfl⟩
  · refine ⟨_, exec_notifyHalt_of_service hi hu hv, rfl, rfl, rfl, ?_⟩
    have hlatched : ¬(s.S.conn = .transmitting ∧ (s.S.userHalt = true ∨ s.cfg.haltService = .immediate)) := by
      rintro ⟨-, hh | him⟩
      · exact hidle ⟨hc, hh⟩
      · rw [hmode] at him; cases him
    rw [if_neg hlatched, if_pos hc]
    exact ⟨rfl, rfl, rfl⟩
  · refine ⟨_, exec_notifyHalt_of_service hi hu hv, rfl, rfl, rfl, ?_⟩
    rw [if_pos ⟨hc, .inr hmode⟩]
    exact ⟨rfl, rfl, outputs_serviced_emit (setUserHalt true s) _⟩

/-- Settles O41, by what SERIALIZE of DATA does in each case (O22). -/
theorem sendAllFollowsItsRule : Obligations.SendAllFollowsItsRule := by
  unfold Obligations.SendAllFollowsItsRule
  intro s hi P n
  obtain ⟨hover, hsmall, hout, hin⟩ := serializeOfData s
  refine ⟨fun hn => ?_, fun hn hb => ?_, fun hn hb hbad => ?_, fun hn hb hread => ?_, fun hread => ?_⟩
  · exact execSendAll_of_serialize hi (serialize_of_exec_txData (hover hn))
  · exact execSendAll_of_serialize hi (serialize_of_exec_txData (hsmall hn hb))
  · obtain ⟨a, ha⟩ := hout hn hb hbad
    exact ⟨a, exec_sendAll_refused_of_txData hi ha⟩
  · have hframe := serialize_of_exec_txData (hin hn hb fun i hi => hread i (mem_stagedIds.1 hi).1)
    exact ⟨_, hframe, execSendAll_of_serialize hi hframe⟩
  · obtain ⟨r, hr⟩ := serialize_answers 5 hread
    refine ⟨_, r, execSendAll_of_serialize hi hr, hr, rfl, rfl, rfl, rfl, rfl, ?_⟩
    cases r <;> rfl

/-- Settles O42: the halt service sends the one STOP, and what the event does after it sends none. -/
theorem latchedHaltSendsOneStopAtTheNextEvent : Obligations.LatchedHaltSendsOneStopAtTheNextEvent := by
  unfold Obligations.LatchedHaltSendsOneStopAtTheNextEvent
  intro s t f hlegal hack hc hh h
  have hu : serviceHalt s = .next (serviced s) := serviceHalt_due hc hh
  have hstop : stopOutput s.cfg = .tx (wireFrame s.cfg 6 []) := if_pos hlegal
  have after : ∀ {os : List Output}, t.S.userHalt = false → Outputs (serviced s) t os → NoStopFrame s.cfg os →
      t.S.userHalt = false ∧ ∃ os, Outputs s t (.tx (wireFrame s.cfg 6 []) :: os) ∧ NoStopFrame s.cfg os := by
    intro os hlatch hos hno
    refine ⟨hlatch, os, ?_, hno⟩
    rw [← hstop]
    exact hos.trans (List.append_assoc _ _ _)
  have hstatus : NoStopFrame s.cfg [.ret .ok] := noStopFrame_singleton (by simp)
  rcases h with h | h | h
  · obtain ⟨T, hT⟩ := frameReceived_eq_handleType f s
    rw [hT, hu, andThen_next] at h
    obtain ⟨os, hos, hno⟩ := handleType_noStopFrame h hack
    have hlatch : t.S.userHalt = (serviced s).S.userHalt := by
      obtain ⟨c, os', b, rfl, -⟩ := handleType_next h
      rfl
    exact after hlatch hos hno
  · obtain ⟨-, u, hu', rfl⟩ := execNotifyReady_next h
    cases hu.symm.trans hu'
    exact after rfl rfl hstatus
  · obtain ⟨-, u, v, hu', hv, rfl⟩ := execNotifyHalt_next h
    cases hu.symm.trans hu'
    cases (latchHalt_serviced s).symm.trans hv
    exact after rfl rfl hstatus

end Sys2Proof.Machine
end

section
/-! PROOFS. The connection's moves (43_state_machine.md section 2, R242): the handshake, the arrows a step can take, and
the ways out of Transmitting. -/

namespace Sys2Proof.Machine

/-! ### The arrows -/

/-- From `c` to `d` along the table of section 2: no move, DROP and RESET to Idle, or one of the four arrows. -/
def MovesAlongTable (c d : ConnState) : Prop :=
  d = c ∨ d = .idle ∨ (c = .idle ∧ d = .sync) ∨ (c = .sync ∧ d = .connected) ∨
  (c = .connected ∧ d = .transmitting) ∨ (c = .transmitting ∧ d = .connected)

theorem handleType_movesAlongTable {T : Option FrameType} {s t : State} (h : handleType T s = .next t) :
    MovesAlongTable s.S.conn t.S.conn := by
  obtain ⟨c, os, b, rfl, -, hc⟩ := handleType_next h
  rcases hc with hc | ⟨-, hc⟩ | ⟨-, hc⟩ | ⟨-, hc⟩ | ⟨-, hc⟩
  · exact .inl hc
  · exact .inr (.inr (.inl hc))
  · exact .inr (.inr (.inr (.inl hc)))
  · exact .inr (.inr (.inr (.inr (.inl hc))))
  · exact .inr (.inl hc)

/-- A delivered frame can find a Halt latched, and then moves from Connected, where the service leaves. -/
theorem rxByte_movesAlongTable {b : Byte} {s t : State} (h : exec (.rxByte b) s = .next t) :
    MovesAlongTable s.S.conn t.S.conn := by
  obtain ⟨-, -, -, -, -, -, -, -, -, -, -, -, -, -, -, hend⟩ := rxByte_link h
  rcases hend with ⟨-, hc, -⟩ | ⟨-, -, -, ⟨-, -, hc⟩ | ⟨htr, -, -, hc⟩, -⟩
  · exact .inl hc
  · rcases hc with hc | hc | hc | hc | hc
    · exact .inl hc
    · exact .inr (.inl hc)
    · exact .inr (.inr (.inl hc))
    · exact .inr (.inr (.inr (.inl hc)))
    · exact .inr (.inr (.inr (.inr (.inl hc))))
  · rcases hc with hc | hc | hc
    · exact .inr (.inr (.inr (.inr (.inr ⟨htr, hc⟩))))
    · exact .inr (.inl hc)
    · exact .inl (hc.trans htr.symm)

theorem app_movesAlongTable {i : Instr} {s t : State} (hi : IsApp i) (h : exec i s = .next t) :
    MovesAlongTable s.S.conn t.S.conn := by
  obtain ⟨c, x, r, os, b, rfl, -, -, hc⟩ := app_shape hi h
  rcases hc with ⟨hc, -⟩ | ⟨htr, hc, -⟩ | ⟨htr, hc, -⟩
  · exact .inl hc
  · exact .inl (hc.trans htr.symm)
  · exact .inr (.inr (.inr (.inr (.inr ⟨htr, hc⟩))))

theorem exec_movesAlongTable {i : Instr} {s t : State} (h : exec i s = .next t) :
    MovesAlongTable s.S.conn t.S.conn := by
  rcases exec_class h with ⟨r, rfl, -⟩ | ⟨T, hT, -, -⟩ | ⟨b, rfl⟩ | ⟨n, rfl⟩ | ⟨-, hreg | happ⟩
  · exact .inl rfl
  · exact handleType_movesAlongTable hT
  · exact rxByte_movesAlongTable h
  · obtain ⟨hn, rfl⟩ := execReset_next h
    exact .inr (.inl rfl)
  · obtain ⟨sl, ec, rs, e, b, rfl⟩ := reg_shape hreg h
    exact .inl rfl
  · exact app_movesAlongTable happ h

/-! ### The ways out of Transmitting (R242) -/

/-- Masking reception does not change which byte ends a frame. -/
theorem terminated_accumulated_eq (b : Byte) (s : State) :
    terminated (accumulated b s).S = terminated (accumulate b s.S) := by
  rw [Bool.eq_iff_iff, terminated_accumulated, terminated_eq, received_accumulate, EndsFrame]

theorem handleType_leaves_transmitting {T : Option FrameType} {s t : State} (h : handleType T s = .next t)
    (hc : s.S.conn = .transmitting) (hl : t.S.conn ≠ .transmitting) : T = some .drop ∧ t.S.conn = .idle := by
  obtain ⟨c, os, b, rfl, -, hmove⟩ := handleType_next h
  rw [hc] at hmove
  rcases hmove with hmove | ⟨-, hmove, -⟩ | ⟨-, hmove, -⟩ | ⟨-, hmove, -⟩ | hmove
  · exact absurd hmove hl
  · cases hmove
  · cases hmove
  · cases hmove
  · exact hmove

/-- A received byte leaves Transmitting by ending a frame: a DROP to Idle, any other with a Halt latched. -/
theorem rxByte_leaves_transmitting {b : Byte} {s t : State} (h : exec (.rxByte b) s = .next t)
    (hc : s.S.conn = .transmitting) (hl : t.S.conn ≠ .transmitting) :
    terminated (accumulate b s.S) = true ∧
    ((t.S.conn = .idle ∧ byteAt (received (accumulate b s.S)) 0 = 7) ∨
     (t.S.conn = .connected ∧ t.S.userHalt = false ∧ s.S.userHalt = true)) := by
  obtain ⟨-, -, -, -, -, -, -, -, -, -, -, -, -, -, -, hend⟩ := rxByte_link h
  rw [terminated_accumulated_eq] at hend
  rw [received_accumulate]
  rcases hend with ⟨-, hsame, -⟩ | ⟨hterm, -, -, hmove, hdrop⟩
  · exact absurd (hsame.trans hc) hl
  refine ⟨hterm, ?_⟩
  rcases hmove with ⟨-, -, hmove⟩ | ⟨-, hh, hclear, hmove⟩
  · rw [hc] at hmove
    rcases hmove with hmove | hmove | ⟨hmove, -⟩ | ⟨hmove, -⟩ | ⟨hmove, -⟩
    · exact absurd hmove hl
    · exact .inl ⟨hmove, hdrop hc hmove⟩
    · cases hmove
    · cases hmove
    · cases hmove
  · rcases hmove with hmove | hmove | hmove
    · exact .inr ⟨hmove, hclear, hh⟩
    · exact .inl ⟨hmove, hdrop hc hmove⟩
    · exact absurd hmove hl

theorem app_leaves_transmitting {i : Instr} {s t : State} (hi : IsApp i) (h : exec i s = .next t)
    (hc : s.S.conn = .transmitting) (hl : t.S.conn ≠ .transmitting) :
    t.S.conn = .connected ∧ t.S.userHalt = false ∧
    ((s.S.userHalt = true ∧ (i = .notifyReady ∨ i = .notifyHalt)) ∨
     (s.cfg.haltService = .immediate ∧ i = .notifyHalt)) := by
  obtain ⟨c, x, r, os, b, rfl, -, -, hmove⟩ := app_shape hi h
  rcases hmove with ⟨hmove, -⟩ | ⟨-, hmove, -⟩ | ⟨-, hmove, hclear, hcause⟩
  · exact absurd (hmove.trans hc) hl
  · exact absurd hmove hl
  · exact ⟨hmove, hclear, hcause.imp (fun ⟨hh, hns⟩ => ⟨hh, hi.resolve_left hns⟩) id⟩

/-! ### The statements -/

/-- Settles O43: each frame finds the connection in the state the one before left. -/
theorem handshakeReachesTransmittingWithOneStart : Obligations.HandshakeReachesTransmittingWithOneStart := by
  unfold Obligations.HandshakeReachesTransmittingWithOneStart
  intro s f g h hc
  refine ⟨emit (.sig .start) (setConn .transmitting (setConn .connected
      (emit (syncRespOutput s) (setTxBuf none (setConn .sync s))))), ?_, rfl, ?_⟩
  · change andThen (onSync s) _ = _
    rw [onSync_of_idle hc]
    rfl
  · refine ⟨[syncRespOutput s, .sig .start], List.append_assoc _ _ _, ?_⟩
    unfold syncRespOutput
    split <;> exact ⟨rfl, rfl⟩

/-- Settles O44: a host write leaves the Session, and every instruction moves along the table. -/
theorem connectionMovesAlongTheTable : Obligations.ConnectionMovesAlongTheTable := by
  unfold Obligations.ConnectionMovesAlongTheTable
  intro s t h
  rcases step_cases h with rfl | ⟨a, v, es, hw⟩ | ⟨i, es, -, -, he⟩
  · exact .inl rfl
  · obtain ⟨-, rfl⟩ := memWrite_eq_next.1 hw
    exact .inl rfl
  · exact exec_movesAlongTable (s := { s with input := es }) he

/-- Settles O45, by the classes of instructions: SERIALIZE and the registry operations leave the connection alone. -/
theorem transmittingIsLeftOnlyByHaltDropOrReset : Obligations.TransmittingIsLeftOnlyByHaltDropOrReset := by
  unfold Obligations.TransmittingIsLeftOnlyByHaltDropOrReset
  intro s t i h hc hl
  rcases exec_class h with ⟨r, rfl, -⟩ | ⟨T, hT, hdrop, -⟩ | ⟨b, rfl⟩ | ⟨n, rfl⟩ | ⟨-, hreg | happ⟩
  · exact absurd hc hl
  · obtain ⟨hTdrop, hidle⟩ := handleType_leaves_transmitting hT hc hl
    exact .inl ⟨hidle, .inr (.inl (hdrop hTdrop))⟩
  · obtain ⟨hterm, ⟨hidle, htype⟩ | ⟨hconn, hclear, hh⟩⟩ := rxByte_leaves_transmitting h hc hl
    · exact .inl ⟨hidle, .inr (.inr ⟨b, rfl, hterm, htype⟩)⟩
    · exact .inr ⟨hconn, hclear, .inl ⟨hh, .inr (.inr ⟨b, rfl, hterm⟩)⟩⟩
  · obtain ⟨hn, rfl⟩ := execReset_next h
    exact .inl ⟨rfl, .inl ⟨n, rfl⟩⟩
  · obtain ⟨sl, ec, rs, e, b, rfl⟩ := reg_shape hreg h
    exact absurd hc hl
  · obtain ⟨hconn, hclear, ⟨hh, hi⟩ | himm⟩ := app_leaves_transmitting happ h hc hl
    · exact .inr ⟨hconn, hclear, .inl ⟨hh, hi.imp id .inl⟩⟩
    · exact .inr ⟨hconn, hclear, .inr himm⟩

end Sys2Proof.Machine
end

section
/-! PROOFS. Exceptions (60_exceptions.md R272, R274, R287): a failed command changes nothing, the idle step and the
application's own write of `BUF`, and what can stop a step under the invariant. -/

namespace Sys2Proof

/-! ### Why a command's bytes are rejected (30_encoding.md R131, R132) -/

theorem decodeId_error {mk : Byte → Instr} {bs : List Byte} {r : Reject} (h : decodeId mk bs = .error r) :
    r = .short ∧ bs = [] := by
  cases bs with
  | nil => cases h; exact ⟨rfl, rfl⟩
  | cons id rest => cases h

theorem decodeEnable_error {cfg : Config} {bs : List Byte} {r : Reject} (h : decodeEnable cfg bs = .error r) :
    (r = .short ∧ bs.length < 6 + addrBytes cfg) ∨ r = .baseTooWide := by
  simp only [decodeEnable] at h
  split at h
  · rename_i hshort
    cases h
    exact .inl ⟨rfl, hshort⟩
  · split at h
    · cases h
    · cases h
      exact .inr rfl

theorem decodeWriteStaged_error {bs : List Byte} {r : Reject} (h : decodeWriteStaged bs = .error r) :
    r = .short ∧ bs.length < 5 + leNat ((bs.drop 1).take 4) := by
  simp only [decodeWriteStaged] at h
  split at h
  · cases h
    exact ⟨rfl, by omega⟩
  · split at h
    · rename_i hshort
      cases h
      exact ⟨rfl, hshort⟩
    · cases h

/-- Bytes that are no command are too few for their opcode, or an ENABLE whose base is too wide. -/
theorem decodeCommand_error {cfg : Config} {bs : List Byte} {r : Reject} (h : decodeCommand cfg bs = .error r) :
    (r = .short ∧ bs.length < commandLength cfg bs) ∨ (r = .baseTooWide ∧ byteAt bs 0 = 1) := by
  cases bs with
  | nil => cases h; exact .inl ⟨rfl, Nat.zero_lt_one⟩
  | cons op bs =>
    simp only [decodeCommand] at h
    split at h
    case h_9 => cases h
    all_goals
      rename_i hop
      obtain ⟨-, rfl⟩ := BitVec.toNat_eq_nat.1 hop
    case h_1 =>
      refine (decodeEnable_error h).imp (fun ⟨hr, hlen⟩ => ⟨hr, ?_⟩) fun hr => ⟨hr, rfl⟩
      change bs.length + 1 < 7 + addrBytes cfg
      omega
    case h_2 | h_4 =>
      obtain ⟨hr, rfl⟩ := decodeId_error h
      exact .inl ⟨hr, Nat.one_lt_two⟩
    case h_3 =>
      obtain ⟨hr, hlen⟩ := decodeWriteStaged_error h
      refine .inl ⟨hr, ?_⟩
      change bs.length + 1 < 6 + leNat ((bs.drop 1).take 4)
      omega
    all_goals cases h

end Sys2Proof

namespace Sys2Proof.Machine

/-! ### How a command ends (R272, R274) -/

/-- A registry operation fails, with its status as all that it leaves, or returns OK. -/
theorem reg_fails_or_returns_ok {i : Instr} {s t : State} (hi : IsReg i) (h : exec i s = .next t) :
    (∃ e, t = emit (.ret e) s) ∨ Outputs s t [.ret .ok] := by
  rcases hi with ⟨id, base, cap, ty, rfl⟩ | ⟨id, rfl⟩ | ⟨id, bytes, rfl⟩ | ⟨id, rfl⟩ | rfl
  · obtain ⟨-, ⟨e, -, ht⟩ | ⟨-, -, rfl⟩⟩ := execEnable_next h
    · exact .inl ⟨e, ht⟩
    · exact .inr rfl
  · obtain ⟨-, ⟨e, -, ht⟩ | ⟨-, rfl⟩⟩ := execDisable_next h
    · exact .inl ⟨e, ht⟩
    · exact .inr rfl
  · obtain ⟨-, ⟨e, -, ht⟩ | ⟨-, -, u, hw, rfl⟩⟩ := execWriteStaged_next h
    · exact .inl ⟨e, ht⟩
    · rw [(writeBytes_spec hw).1]
      exact .inr rfl
  · obtain ⟨-, ⟨e, -, ht⟩ | ⟨-, u, hw, rfl⟩⟩ := execClearStaged_next h
    · exact .inl ⟨e, ht⟩
    · rw [(writeBytes_spec hw).1]
      exact .inr rfl
  · obtain ⟨-, rfl⟩ := execClearAll_next h
    exact .inr rfl

/-- SEND_ALL fails with the codec's status alone; it and the notifications otherwise return OK after their outputs. -/
theorem app_fails_or_returns_ok {i : Instr} {s t : State} (hi : IsApp i) (h : exec i s = .next t) :
    (∃ e, t = emit (.ret e) (setTxBuf none s)) ∨ ∃ os, Outputs s t (os ++ [.ret .ok]) := by
  rcases hi with rfl | rfl | rfl
  · obtain ⟨-, r, -, ⟨e, -, ht⟩ | ⟨f, -, rfl⟩⟩ := execSendAll_next h
    · exact .inl ⟨e, ht⟩
    · exact .inr ⟨[.tx f], List.append_assoc _ _ _⟩
  · obtain ⟨-, u, hu, rfl⟩ := execNotifyReady_next h
    obtain ⟨c, x, os, b, rfl, -⟩ := serviceHalt_link hu
    exact .inr ⟨os, List.append_assoc _ _ _⟩
  · obtain ⟨-, u, v, hu, hv, rfl⟩ := execNotifyHalt_next h
    obtain ⟨c, x, os, b, rfl, -⟩ := serviceHalt_link hu
    obtain ⟨c', x', os', b', rfl, -⟩ := latchHalt_link hv
    refine .inr ⟨os ++ os', ?_⟩
    simp only [Outputs, emit_trace, List.append_assoc]

/-- A command that answers has changed neither `S` nor `BUF` and output its status alone, or its last output is OK. -/
theorem command_fails_or_returns_ok {i : Instr} {s t : State} (hp : i.port = .cmd) (h : exec i s = .next t) :
    (t.S = s.S ∧ t.buf = s.buf ∧ ∃ e, Outputs s t [.ret e]) ∨ ∃ os, Outputs s t (os ++ [.ret .ok]) := by
  rcases exec_class h with ⟨-, -, hport⟩ | ⟨-, -, -, hport⟩ | ⟨b, rfl⟩ | ⟨n, rfl⟩ | ⟨-, hreg | happ⟩
  · cases hp.symm.trans hport
  · cases hp.symm.trans hport
  · cases hp
  · cases hp
  · rcases reg_fails_or_returns_ok hreg h with ⟨e, rfl⟩ | hok
    · exact .inl ⟨rfl, rfl, e, rfl⟩
    · exact .inr ⟨[], hok⟩
  · rcases app_fails_or_returns_ok happ h with ⟨e, rfl⟩ | hok
    · exact .inl ⟨rfl, rfl, e, rfl⟩
    · exact .inr hok

/-- The last output of an operation and those before it. -/
theorem Outputs.append_singleton_inj {s t : State} {os os' : List Output} {o o' : Output}
    (h : Outputs s t (os ++ [o])) (h' : Outputs s t (os' ++ [o'])) : os = os' ∧ o = o' := by
  obtain ⟨hos, ho⟩ := List.append_inj' (List.append_cancel_left (h.symm.trans h')) rfl
  exact ⟨hos, List.singleton_inj.1 ho⟩

/-! ### The application's own write of `BUF` (20_memory.md R84, R87) -/

theorem step_bufWrite (s : State) (a : Nat) (v : Byte) (es : List Event) :
    step { s with input := .bufWrite a v :: es } = memWrite a v { s with input := es } := rfl

theorem memWrite_refused {s : State} {a : Nat} (v : Byte) (h : 2 ^ s.cfg.addrW ≤ a) :
    memWrite a v s = .refused (.bufAddressOutOfRange a) :=
  if_neg (Nat.not_lt.2 h)

/-! ### What stops a command or RESET (20_memory.md R84, 30_encoding.md R132, 70_reset_and_hazards.md R304) -/

theorem execReset_answers {n : Byte} (s : State) (h : n.toNat ≤ 32) : ∃ t, execReset n s = .next t :=
  ⟨_, dif_pos (Nat.lt_succ_of_le h)⟩

theorem execReset_refused {n : Byte} (s : State) (h : 32 < n.toNat) :
    execReset n s = .refused (.resetOperandOutOfRange n) :=
  dif_neg (Nat.not_lt.2 h)

/-- Where every staged byte lies inside `BUF`, a command answers, but for a reserved opcode and a staging command that
leaves `BUF`. -/
theorem command_answers_or_refused {i : Instr} {s : State} (hp : i.port = .cmd) (hi : s.S.initialized = true)
    (hread : StagedReadable s) :
    (∃ t, exec i s = .next t) ∨ (∃ op, i = .cmdReserved op) ∨
      (IsStaging i ∧ ∃ a, exec i s = .refused (.bufAddressOutOfRange a)) := by
  cases i with
  | enable id base capacity dataType =>
    exact .inl ((enableFollowsItsRule s id base capacity dataType hi).imp fun _ h => h.1)
  | disable id => exact .inl ((disableFollowsItsRule s id hi).imp fun _ h => h.1)
  | writeStaged id bytes =>
    have hst : IsStaging (.writeStaged id bytes) := .inl ⟨id, bytes, rfl⟩
    exact (reg_next_or_refused hi (.inr (.inr (.inl ⟨id, bytes, rfl⟩)))).imp_right fun h => .inr ⟨hst, h⟩
  | clearStaged id =>
    have hst : IsStaging (.clearStaged id) := .inr ⟨id, rfl⟩
    exact (reg_next_or_refused hi (.inr (.inr (.inr (.inl ⟨id, rfl⟩))))).imp_right fun h => .inr ⟨hst, h⟩
  | clearAll => exact .inl ⟨_, exec_clearAll_empties hi⟩
  | sendAll =>
    obtain ⟨r, hr⟩ := serialize_answers 5 hread
    exact .inl ⟨_, execSendAll_of_serialize hi hr⟩
  | notifyReady => exact .inl ((notifyReadyFollowsItsRule s hi).imp fun _ h => h.1)
  | notifyHalt => exact .inl ((notifyHaltFollowsItsRule s hi).imp fun _ h => h.1)
  | cmdReserved op => exact .inr (.inl ⟨op, rfl⟩)
  | _ => cases hp

/-- A staging command's opcode is 3 or 4 (30_encoding.md R130). -/
theorem byteAt_of_decode_staging {cfg : Config} {bs rest : List Byte} {i : Instr} (hst : IsStaging i)
    (h : decodeCommand cfg bs = .ok (i, rest)) : byteAt bs 0 = 3 ∨ byteAt bs 0 = 4 := by
  rw [← decodeCommand_bytes h]
  obtain ⟨id, bytes, rfl⟩ | ⟨id, rfl⟩ := hst
  · exact .inl rfl
  · exact .inr rfl

/-! ### The statements -/

/-- Settles O18: a command's outputs end in OK, or they are the one error status of a command that wrote nothing. -/
theorem failedCommandsChangeNothing : Obligations.FailedCommandsChangeNothing := by
  unfold Obligations.FailedCommandsChangeNothing
  intro s t i os e hp h hout hne
  rcases command_fails_or_returns_ok hp h with ⟨hS, hbuf, e', hfail⟩ | ⟨os', hok⟩
  · exact ⟨hS, hbuf, (hout.append_singleton_inj (os' := []) hfail).1⟩
  · exact absurd (Output.ret.inj (hout.append_singleton_inj hok).2) hne

/-- Settles O54: a command's bytes are rejected for the reasons of the decoder or run a command that answers, is
reserved, or stages outside `BUF`; a received byte always answers; RESET and a host write are refused by range only. -/
theorem stepsStopOnlyForTheirEventUnderTheInvariant :
    Obligations.StepsStopOnlyForTheirEventUnderTheInvariant := by
  unfold Obligations.StepsStopOnlyForTheirEventUnderTheInvariant
  rintro s e es ⟨-, -, hS⟩ hi
  obtain ⟨-, -, -, ⟨-, -, harmed⟩, hread, -⟩ := hS hi
  cases e with
  | cmd bs =>
    cases hdec : decode s.cfg .cmd bs with
    | error x =>
      have hrefused := runBytes_of_reject (s := { s with input := .cmd bs :: es }) es hdec
      rcases decodeCommand_error hdec with ⟨rfl, hshort⟩ | ⟨rfl, hop⟩
      · exact .inr (.inl ⟨bs, rfl, .inr (.inl ⟨hshort, hrefused⟩)⟩)
      · exact .inr (.inl ⟨bs, rfl, .inr (.inr (.inl ⟨hop, hrefused⟩))⟩)
    | ok p =>
      obtain ⟨i, rest⟩ := p
      obtain ⟨hwf, hport⟩ := decodeCommand_ok hdec
      rw [(stepRunsTheDecodedInstruction s es i).1 bs rest hdec]
      generalize (if rest = [] then es else .cmd rest :: es) = es'
      rcases command_answers_or_refused (s := { s with input := es' }) hport hi hread with
        hnext | ⟨op, rfl⟩ | ⟨hst, hout⟩
      · exact .inl hnext
      · have hbytes : op :: rest = bs := decodeCommand_bytes hdec
        exact .inr (.inl ⟨bs, rfl, .inl ⟨op, rest, hbytes.symm, of_decide_eq_true hwf, rfl⟩⟩)
      · exact .inr (.inl ⟨bs, rfl, .inr (.inr (.inr ⟨byteAt_of_decode_staging hst hdec, hout⟩))⟩)
  | rx b => exact .inl (rxByte_answers (s := { s with input := es }) hi harmed hread)
  | reset n =>
    rcases Nat.lt_or_ge 32 n.toNat with hn | hn
    · exact .inr (.inr (.inl ⟨n, rfl, hn, execReset_refused _ hn⟩))
    · exact .inl (execReset_answers _ hn)
  | bufWrite a v =>
    rw [step_bufWrite]
    rcases Nat.lt_or_ge a (2 ^ s.cfg.addrW) with ha | ha
    · exact .inl ⟨_, memWrite_eq_next.2 ⟨ha, rfl⟩⟩
    · exact .inr (.inr (.inr ⟨a, v, rfl, ha, memWrite_refused v ha⟩))

/-- Settles O9: without an event the step is the identity, and a host write is one `MemWrite`. -/
theorem idleAndHostWriteSteps : Obligations.IdleAndHostWriteSteps := by
  unfold Obligations.IdleAndHostWriteSteps
  refine ⟨fun s hidle => ?_, fun s es a v => ?_⟩
  · rw [step, hidle]
  · rw [step_bufWrite]
    refine ⟨fun ha => ⟨_, memWrite_eq_next.2 ⟨ha, rfl⟩, ?_⟩, fun ha => memWrite_refused v ha⟩
    exact ⟨read_write_self _ a v, fun c hc => read_write_ne _ v hc, rfl, rfl, rfl, rfl, rfl⟩

end Sys2Proof.Machine
end

section
/-! PROOFS. Reset and hazards (70_reset_and_hazards.md R300 to R311): what RESET leaves, the events that are not
admitted, and the staged data a later SEND_ALL sends again. -/

namespace Sys2Proof.Machine

/-! ### What SEND_ALL depends on (R311) -/

/-- The state SEND_ALL reads is the same: whether it is admitted, and all that SERIALIZE of DATA reads. -/
structure SameSendAllSource (s t : State) : Prop where
  initialized : t.S.initialized = s.S.initialized
  slots : t.S.slots = s.S.slots
  totalChannels : t.S.totalChannels = s.S.totalChannels
  buf : t.buf = s.buf
  cfg : t.cfg = s.cfg

theorem SameSendAllSource.refl (s : State) : SameSendAllSource s s := ⟨rfl, rfl, rfl, rfl, rfl⟩

theorem SameSendAllSource.trans {s t u : State} (h : SameSendAllSource s t) (h' : SameSendAllSource t u) :
    SameSendAllSource s u where
  initialized := h'.initialized.trans h.initialized
  slots := h'.slots.trans h.slots
  totalChannels := h'.totalChannels.trans h.totalChannels
  buf := h'.buf.trans h.buf
  cfg := h'.cfg.trans h.cfg

theorem exec_keeps_sendAllSource {i : Instr} {s t : State} (hreg : ¬IsReg i) (hr : ∀ n, i ≠ .reset n)
    (h : exec i s = .next t) : SameSendAllSource s t :=
  have hf := exec_footprint h hr
  { initialized := hf.initialized
    slots := (hf.registry.resolve_left hreg).1
    totalChannels := hf.totalChannels
    buf := hf.buf.resolve_left hreg
    cfg := hf.cfg }

theorem execAll_keeps_sendAllSource {is : List Instr} (his : ∀ i ∈ is, ¬IsReg i ∧ ∀ n, i ≠ .reset n) {s t : State}
    (h : execAll is s = .next t) : SameSendAllSource s t := by
  induction is generalizing s with
  | nil =>
    cases h
    exact .refl _
  | cons i is ih =>
    obtain ⟨hi, his⟩ := List.forall_mem_cons.1 his
    obtain ⟨u, hu, h⟩ := andThen_eq_next.1 h
    exact (exec_keeps_sendAllSource hi.1 hi.2 hu).trans (ih his h)

/-- SEND_ALL answers exactly where it is admitted and SERIALIZE of DATA answers (43_state_machine.md R245). -/
theorem exec_sendAll_eq_next {s t : State} :
    exec .sendAll s = .next t ↔ s.S.initialized = true ∧
      ∃ r, serialize s 5 = .next r ∧ t = { s with txBuf := none, trace := s.trace ++ sendAllOutputs r } := by
  constructor
  · intro h
    obtain ⟨hi, r, hr, -⟩ := execSendAll_next h
    exact ⟨hi, r, hr, Host.Outcome.next.inj (h.symm.trans (execSendAll_of_serialize hi hr))⟩
  · rintro ⟨hi, r, hr, rfl⟩
    exact execSendAll_of_serialize hi hr

theorem exec_sendAll_of_sameSource {s t u : State} {os : List Output} (h : exec .sendAll s = .next t)
    (hos : Outputs s t os) (hu : SameSendAllSource s u) : ∃ v, exec .sendAll u = .next v ∧ Outputs u v os := by
  obtain ⟨hi, r, hr, rfl⟩ := exec_sendAll_eq_next.1 h
  obtain rfl : sendAllOutputs r = os := List.append_cancel_left hos
  have hru : serialize u 5 = .next r := (serialize_congr hu.slots hu.totalChannels hu.buf hu.cfg 5).trans hr
  exact ⟨_, exec_sendAll_eq_next.2 ⟨hu.initialized.trans hi, r, hru, rfl⟩, rfl⟩

/-! ### Events that are not admitted (R302, 42_receive_assembler.md R210) -/

theorem command_refused_before_reset {i : Instr} {s : State} (hp : i.port = .cmd) (hi : s.S.initialized = false) :
    ∃ r, exec i s = .refused r := by
  have hni : ¬s.S.initialized = true := Bool.eq_false_iff.1 hi
  cases i with
  | cmdReserved op => exact ⟨.reservedCommand op, rfl⟩
  | enable | disable | writeStaged | clearStaged | clearAll | sendAll | notifyReady | notifyHalt =>
    exact ⟨.beforeReset, if_neg hni⟩
  | _ => cases hp

theorem exec_rxByte_before_reset (b : Byte) {s : State} (hi : s.S.initialized = false) :
    exec (.rxByte b) s = .refused .beforeReset := by
  rw [exec, execRxByte, admitted_of_not _ hi]

theorem exec_rxByte_disarmed (b : Byte) {s : State} (hi : s.S.initialized = true) (ha : s.S.rxArmed = false) :
    exec (.rxByte b) s = .refused .receptionDisarmed := by
  rw [exec, execRxByte, admitted_of_initialized _ hi, if_pos ha]

/-! ### What RESET leaves (R300) -/

theorem exec_reset_of_le {n : Byte} (s : State) (h : n.toNat ≤ 32) :
    exec (.reset n) s = .next (setSession (Session.afterReset ⟨n.toNat, Nat.lt_succ_of_le h⟩) s) :=
  dif_pos (Nat.lt_succ_of_le h)

/-! ### The statements -/

/-- Settles O60: SEND_ALL and every instruction that is neither RESET nor a registry operation keep what SEND_ALL
reads. -/
theorem repeatedSendAllSendsTheSamePayload : Obligations.RepeatedSendAllSendsTheSamePayload := by
  unfold Obligations.RepeatedSendAllSendsTheSamePayload
  intro s t u is os hsend hos his hrun
  have hkeep : ∀ i ∈ is, ¬IsReg i ∧ ∀ n, i ≠ .reset n := by
    intro i hi
    obtain ⟨hen, hdis, hwr, hcl, hall, hr⟩ := his i hi
    refine ⟨?_, hr⟩
    rintro (⟨id, base, cap, ty, rfl⟩ | ⟨id, rfl⟩ | ⟨id, bytes, rfl⟩ | ⟨id, rfl⟩ | rfl)
    · exact hen id base cap ty rfl
    · exact hdis id rfl
    · exact hwr id bytes rfl
    · exact hcl id rfl
    · exact hall rfl
  have hst : SameSendAllSource s t := exec_keeps_sendAllSource (by simp [IsReg]) (by simp) hsend
  have hsu : SameSendAllSource s u := hst.trans (execAll_keeps_sendAllSource hkeep hrun)
  exact ⟨fun j => congrArg Slot.stagedSize (slotAt_congr hsu.slots j), exec_sendAll_of_sameSource hsend hos hsu⟩

/-- Settles O10: a command's bytes are rejected or run a command, which like a received byte is not admitted before the
first RESET; a disarmed receiver refuses the byte. -/
theorem inadmissibleEventsAreRefused : Obligations.InadmissibleEventsAreRefused := by
  unfold Obligations.InadmissibleEventsAreRefused
  refine ⟨fun s e es hi hreset hwrite => ?_, fun s b es hi ha => ?_⟩
  · cases e with
    | cmd bs =>
      cases hdec : decode s.cfg .cmd bs with
      | error x => exact ⟨refusalOf x, runBytes_of_reject (s := { s with input := .cmd bs :: es }) es hdec⟩
      | ok p =>
        obtain ⟨i, rest⟩ := p
        rw [(stepRunsTheDecodedInstruction s es i).1 bs rest hdec]
        exact command_refused_before_reset (decodeCommand_ok hdec).2 hi
    | rx b => exact ⟨.beforeReset, exec_rxByte_before_reset b (s := { s with input := es }) hi⟩
    | reset n => exact absurd rfl (hreset n)
    | bufWrite a v => exact absurd rfl (hwrite a v)
  · exact exec_rxByte_disarmed b (s := { s with input := es }) hi ha

/-- Settles O51: the fields of the Session RESET makes are read off it; the rest of the state is untouched. -/
theorem resetFollowsItsRule : Obligations.ResetFollowsItsRule := by
  unfold Obligations.ResetFollowsItsRule
  intro s n
  refine ⟨fun hn => ⟨_, exec_reset_of_le s hn, ?_⟩, execReset_refused s⟩
  have hrest : SameRest s (setSession (Session.afterReset ⟨n.toNat, Nat.lt_succ_of_le hn⟩) s) := ⟨rfl, rfl, rfl⟩
  exact ⟨rfl, rfl, rfl, rfl, rfl, slotAt_replicate rfl, rfl, rfl, Vector.toList_replicate, rfl, rfl, rfl, rfl, hrest,
    (List.append_nil _).symm⟩

/-- Settles O52: `State.reset` holds the Session RESET(32) makes, an empty `BUF` and an empty transmit buffer. -/
theorem resetStateMeetsTheInvariant : Obligations.ResetStateMeetsTheInvariant := by
  unfold Obligations.ResetStateMeetsTheInvariant
  have hbuf : BufOk State.reset := ⟨⟨.nil, by simp [State.reset]⟩, by simp [State.reset]⟩
  exact ⟨inv_iff.2 ⟨hbuf, rfl, fun _ => sessionOk_afterReset 32 State.reset⟩,
    exec_reset_of_le State.reset (by decide)⟩

end Sys2Proof.Machine
end
